-- ==== Sys2Proof/Config.lean ====
section
/-!
DEFINITION. What is fixed for every launch of the CORE (00_scope.md section 4). The spec leaves no value free
(93_implementation_defined.md section 2: "No behaviour of the CORE is treated as any value or stuck"), so this
file holds no opaque constant.
-/

namespace Sys2Proof.Config

/-- `WORD_BITS` (W), the width of one memory word: R7 takes W = 64 (92_eei_decisions.md D2) and keeps it a named
parameter; another width is chosen here and nowhere else.
DESIGN CHOICE (log entry 8): the model fixes the value; unsafe for an implementation of a narrower word. -/
def wordBits : Nat := 64

/-- `MAX_PARAMS`, the number of parameter modes and the largest number of parameters: R9. -/
def maxParams : Nat := 3

end Sys2Proof.Config
end

