-- ==== Sys2Proof/Word.lean ====
section
/-!
DEFINITION. The memory word. The spec's Word is a mathematical integer in a range, not a string of bits (R7, R12,
R45: "integers constrained by `fits`"), so the type is Int and the range is the predicate `fits`.
-/

namespace Sys2Proof

/-- A memory word, parameter, operand, input or output value: R7, R12. A value is a Word of the spec exactly when
it `fits`; that every value the machine holds does is an invariant of the step. DESIGN CHOICE (log
entry 2); safe. -/
abbrev Word := Int

/-- `WMIN = -2^(W-1)`: R7. -/
def wordMin : Int := -((2 ^ (Config.wordBits - 1) : Nat) : Int)

/-- `WMAX = 2^(W-1) - 1`: R7. -/
def wordMax : Int := ((2 ^ (Config.wordBits - 1) : Nat) : Int) - 1

/-- `fits(v)`: v is a Word (R7, R14). -/
abbrev fits (v : Int) : Prop := wordMin ≤ v ∧ v ≤ wordMax

end Sys2Proof
end

