-- ==== Sys2Proof/Syntax.lean ====
section
/-!
DEFINITION. The instructions of the CORE, one constructor per row of spec/opcode_table.json (R3, R66), each with the
three mode digits of its instruction word and its parameter words (R63).
-/

namespace Sys2Proof

/-- A parameter mode, "a closed variant {Position, Immediate}": R3, R65. -/
inductive Mode where
  | position
  | immediate
  deriving DecidableEq, Repr

/-- The "fixed-size ordered list of addressing modes" of an instruction word: R9, R61. All three are kept, also those
the instruction does not use (R71, R72), so that an instruction word is recovered from its instruction. DESIGN CHOICE
(log entry 11); safe. -/
structure Modes where
  m1 : Mode
  m2 : Mode
  m3 : Mode
  deriving DecidableEq, Repr

/-- The nine operations: R3, R66. -/
inductive Opcode where
  | add | mul | inp | out | jt | jf | lt | eq | halt
  deriving DecidableEq, Repr

/-- An instruction with its mode digits and raw parameters `p1`, `p2`, `p3` (R17, R63). -/
inductive Instr where
  | add (ms : Modes) (p1 p2 p3 : Word)
  | mul (ms : Modes) (p1 p2 p3 : Word)
  | inp (ms : Modes) (p1 : Word)
  | out (ms : Modes) (p1 : Word)
  | jt (ms : Modes) (p1 p2 : Word)
  | jf (ms : Modes) (p1 p2 : Word)
  | lt (ms : Modes) (p1 p2 p3 : Word)
  | eq (ms : Modes) (p1 p2 p3 : Word)
  | halt (ms : Modes)
  deriving DecidableEq, Repr

/-- The operation of an instruction. -/
def Instr.op : Instr → Opcode
  | .add _ _ _ _ => .add
  | .mul _ _ _ _ => .mul
  | .inp _ _ => .inp
  | .out _ _ => .out
  | .jt _ _ _ => .jt
  | .jf _ _ _ => .jf
  | .lt _ _ _ _ => .lt
  | .eq _ _ _ _ => .eq
  | .halt _ => .halt

/-- The mode digits of an instruction, used or not. -/
def Instr.modes : Instr → Modes
  | .add ms _ _ _ => ms
  | .mul ms _ _ _ => ms
  | .inp ms _ => ms
  | .out ms _ => ms
  | .jt ms _ _ => ms
  | .jf ms _ _ => ms
  | .lt ms _ _ _ => ms
  | .eq ms _ _ _ => ms
  | .halt ms => ms

/-- The parameter words that follow the instruction word, in order: R63. -/
def Instr.params : Instr → List Word
  | .add _ a b c => [a, b, c]
  | .mul _ a b c => [a, b, c]
  | .inp _ a => [a]
  | .out _ a => [a]
  | .jt _ a b => [a, b]
  | .jf _ a b => [a, b]
  | .lt _ a b c => [a, b, c]
  | .eq _ a b c => [a, b, c]
  | .halt _ => []

end Sys2Proof
end

