-- ==== Sys2Proof/WellFormed.lean ====
section
/-!
DEFINITION. Which instructions the encoding admits: "A parameter word is a whole Word" (R64). Everything else that
could be ill formed (a mode digit above 1, a wrong number of parameters) is ruled out by the type Instr.
-/

namespace Sys2Proof

/-- Every parameter word of `i` is a Word: R64. -/
abbrev WellFormed (i : Instr) : Prop := ∀ p ∈ i.params, fits p

end Sys2Proof
end

