-- ==== Sys2Proof/Decode.lean ====
section
/-!
DEFINITION. The instruction_decoder (R81 to R83), the decoding of an instruction with its parameter words, and the
encoder. The instruction word is a decimal layout (R60, R61).
-/

namespace Sys2Proof

/-! ### The instruction_decoder -/

/-- The outputs of the instruction_decoder: R81. -/
structure Decoded where
  neg : Bool
  opcode : Nat
  m1 : Nat
  m2 : Nat
  m3 : Nat
  excess : Nat
  known : Bool
  modesOk : Bool
  len : Nat
  deriving DecidableEq, Repr

/-- `d_k(w)`, the k-th decimal digit of `w` from 0 at the units place: R12. -/
def decimalDigit (k w : Nat) : Nat := w / 10 ^ k % 10

/-- The operation a legal opcode value selects; every other value selects none: R66, R67. -/
def opcodeOfNat : Nat → Option Opcode
  | 1 => some .add
  | 2 => some .mul
  | 3 => some .inp
  | 4 => some .out
  | 5 => some .jt
  | 6 => some .jf
  | 7 => some .lt
  | 8 => some .eq
  | 99 => some .halt
  | _ => none

/-- The opcode value of an operation: R66. -/
def opcodeValue : Opcode → Nat
  | .add => 1
  | .mul => 2
  | .inp => 3
  | .out => 4
  | .jt => 5
  | .jf => 6
  | .lt => 7
  | .eq => 8
  | .halt => 99

/-- The length in words of an instruction, "a function of its opcode alone": R63, R74. -/
def opcodeLength : Opcode → Nat
  | .add => 4
  | .mul => 4
  | .inp => 2
  | .out => 2
  | .jt => 3
  | .jf => 3
  | .lt => 4
  | .eq => 4
  | .halt => 1

/-- The decoder: R82. It "never fails" (R83). For a negative word every field is 0, a don't-care, and `known` is
false (R70); `Int.toNat` is 0 there. -/
def decodeWord (w : Int) : Decoded :=
  let n := w.toNat
  { neg := decide (w < 0)
    opcode := n % 100
    m1 := decimalDigit 2 n
    m2 := decimalDigit 3 n
    m3 := decimalDigit 4 n
    excess := n / 100000
    known := !decide (w < 0) && decide (n % 100 ∈ [1, 2, 3, 4, 5, 6, 7, 8, 99])
    modesOk := decide (n / 100000 = 0) && decide (decimalDigit 2 n ∈ [0, 1])
      && decide (decimalDigit 3 n ∈ [0, 1]) && decide (decimalDigit 4 n ∈ [0, 1])
    len := if n % 100 ∈ [1, 2, 7, 8] then 4 else if n % 100 ∈ [3, 4] then 2
      else if n % 100 ∈ [5, 6] then 3 else 1 }

/-- `0 -> Position`, `1 -> Immediate`: R82. It is asked only of digits that passed `modesOk`. -/
def modeOfDigit (d : Nat) : Mode := if d = 1 then .immediate else .position

/-- The three modes of a word whose digits are legal: R82. -/
def decodedModes (d : Decoded) : Modes := ⟨modeOfDigit d.m1, modeOfDigit d.m2, modeOfDigit d.m3⟩

/-- Why a list of words is not an instruction. `missingParam i` says that the i-th parameter word is the first one
that is not there. -/
inductive DecodeError where
  | noWord
  | unknownOpcode
  | illegalMode
  | missingParam (i : Nat)
  deriving DecidableEq, Repr

/-- The engine's two checks on the decoder's outputs, in their order (R93, R168 items 2 and 3): first the opcode
(R67, R70), then the mode digits and the excess digits (R68, R69). -/
def checkHead (d : Decoded) : Except DecodeError (Opcode × Modes) :=
  match d.known, opcodeOfNat d.opcode with
  | true, some op => if d.modesOk then .ok (op, decodedModes d) else .error .illegalMode
  | _, _ => .error .unknownOpcode

/-! ### Parameter words -/

/-- The instruction of an operation, its modes and its parameter words, each obtained from `param` in ascending order,
as many as the operation has and no more: R94. `param i` is the word at `pc + i`, from a list or from memory. -/
def buildInstr {ε : Type} (param : Nat → Except ε Word) (ms : Modes) (op : Opcode) : Except ε Instr :=
  match op with
  | .add => do
    let p1 ← param 1
    let p2 ← param 2
    let p3 ← param 3
    return .add ms p1 p2 p3
  | .mul => do
    let p1 ← param 1
    let p2 ← param 2
    let p3 ← param 3
    return .mul ms p1 p2 p3
  | .inp => do
    let p1 ← param 1
    return .inp ms p1
  | .out => do
    let p1 ← param 1
    return .out ms p1
  | .jt => do
    let p1 ← param 1
    let p2 ← param 2
    return .jt ms p1 p2
  | .jf => do
    let p1 ← param 1
    let p2 ← param 2
    return .jf ms p1 p2
  | .lt => do
    let p1 ← param 1
    let p2 ← param 2
    let p3 ← param 3
    return .lt ms p1 p2 p3
  | .eq => do
    let p1 ← param 1
    let p2 ← param 2
    let p3 ← param 3
    return .eq ms p1 p2 p3
  | .halt => return .halt ms

/-- The i-th parameter (i = 1, 2, 3) among the words after the instruction word. -/
def listParam (rest : List Word) (i : Nat) : Except DecodeError Word :=
  match rest[i - 1]? with
  | some p => .ok p
  | none => .error (.missingParam i)

/-- Decode one instruction from the front of a list of words and give the words after it. Total on every list; a list
that starts no instruction is rejected by name. -/
def decode (ws : List Word) : Except DecodeError (Instr × List Word) :=
  match ws with
  | [] => .error .noWord
  | w :: rest => do
    let (op, ms) ← checkHead (decodeWord w)
    let i ← buildInstr (listParam rest) ms op
    return (i, rest.drop (opcodeLength op - 1))

/-! ### The encoder -/

/-- The mode digit of a mode: R65. -/
def modeDigit : Mode → Nat
  | .position => 0
  | .immediate => 1

/-- The instruction word `CBAop`: R61, R77. -/
def encodeWord (i : Instr) : Word :=
  ((opcodeValue i.op + 100 * modeDigit i.modes.m1 + 1000 * modeDigit i.modes.m2 + 10000 * modeDigit i.modes.m3 : Nat) : Int)

/-- The words of an instruction: its instruction word and its parameter words (R60). -/
def encode (i : Instr) : List Word := encodeWord i :: i.params

/-- The modes with 0 for every digit the instruction ignores: absent parameters (R71) and destinations (R72). -/
def usedModes (i : Instr) : Modes :=
  match i with
  | .add ms _ _ _ => { ms with m3 := .position }
  | .mul ms _ _ _ => { ms with m3 := .position }
  | .inp _ _ => ⟨.position, .position, .position⟩
  | .out ms _ => ⟨ms.m1, .position, .position⟩
  | .jt ms _ _ => { ms with m3 := .position }
  | .jf ms _ _ => { ms with m3 := .position }
  | .lt ms _ _ _ => { ms with m3 := .position }
  | .eq ms _ _ _ => { ms with m3 := .position }
  | .halt _ => ⟨.position, .position, .position⟩

/-- The same instruction with other mode digits. -/
def withModes (i : Instr) (ms : Modes) : Instr :=
  match i with
  | .add _ a b c => .add ms a b c
  | .mul _ a b c => .mul ms a b c
  | .inp _ a => .inp ms a
  | .out _ a => .out ms a
  | .jt _ a b => .jt ms a b
  | .jf _ a b => .jf ms a b
  | .lt _ a b c => .lt ms a b c
  | .eq _ a b c => .eq ms a b c
  | .halt _ => .halt ms

/-- What the spec's assembler writes for an instruction, "the smallest word for each instruction": ignored mode digits
are 0 (R75). -/
def assemble (i : Instr) : List Word := encode (withModes i (usedModes i))

/-! ### Words as bits, for the host's numbering only: DESIGN CHOICE (log entry 7), safe -/

/-- A Word as `WORD_BITS` two's-complement bits (R7: "two's-complement range"). -/
def bitsOfWord (v : Int) : Nat := (v % ((2 ^ Config.wordBits : Nat) : Int)).toNat

/-- The Word whose two's-complement bits are the low `WORD_BITS` bits of `n`. -/
def wordOfBits (n : Nat) : Word :=
  let k := n % 2 ^ Config.wordBits
  if k < 2 ^ (Config.wordBits - 1) then (k : Int) else (k : Int) - ((2 ^ Config.wordBits : Nat) : Int)

/-- Words side by side, the first in the lowest bits. -/
def bitsOfWords : List Word → Nat
  | [] => 0
  | w :: ws => bitsOfWord w + 2 ^ Config.wordBits * bitsOfWords ws

/-- The first `count` words of a number of bits, the lowest bits first. -/
def wordsOfBits : Nat → Nat → List Word
  | 0, _ => []
  | count + 1, n => wordOfBits n :: wordsOfBits count (n / 2 ^ Config.wordBits)

/-- The words of the longest instruction that `nbits` bits `w` stand for; every bit above them is 0. -/
def tableWords (nbits w : Nat) : List Word := wordsOfBits (Config.maxParams + 1) (w % 2 ^ nbits)

/-- The instruction the decoder reads from the bits `w`, the first word in the lowest `WORD_BITS` bits. -/
def decodeTableWord (nbits w : Nat) : Option Instr :=
  match decode (tableWords nbits w) with
  | .ok (i, _) => some i
  | .error _ => none

end Sys2Proof
end

