-- ==== Sys2Proof/Machine/State.lean ====
section
/-!
DEFINITION. The architectural state of the CORE, "exactly the following ...; nothing else is state" (R20), as plain
data, and the state before any program is loaded.
-/

namespace Sys2Proof.Machine

/-- Which access was out of bounds: R28, R41, R162. -/
inductive Access where
  | fetch
  | param
  | read
  | write
  | jump
  deriving DecidableEq, Repr

/-- The five kinds of fault of the CORE with the fields only they record: R160, R28 (`addr` and `access` of an
OutOfBoundsFault, `result` of an ArithmeticOverflowFault, both exact integers). -/
inductive Cause where
  | unknownOpcode
  | outOfBounds (addr : Int) (access : Access)
  | inputUnderflow
  | illegalMode
  | arithmeticOverflow (result : Int)
  deriving DecidableEq, Repr

/-- A fault record: R28. The fields `code`, `addr`, `access` and `result` of R28 are read from `cause` by the
functions of those names in Machine/Ops.lean. -/
structure FaultRecord where
  cause : Cause
  pc : Nat
  word : Option Word
  opcode : Option Nat
  deriving DecidableEq, Repr

/-- The run state `RS`: R27. -/
inductive RunState where
  | running
  | halted
  | faulted
  deriving DecidableEq, Repr

/-- Why `step` stops. The five faults of R160 are NOT here: their entry is a next state with `RS = FAULTED` (R170). -/
inductive Fault where
  /-- Raised by `step` alone, when `RS = HALTED`: "HALTED is terminal: no step is enabled after HALT" (R92, R151).
  DESIGN CHOICE (log entry 4): no step is a stop with a name. Safe: the machine does nothing more. -/
  | runHalted
  /-- Raised by `step` alone, when `RS = FAULTED`: "FAULTED has no enabled step" (R92, R172).
  DESIGN CHOICE (log entry 4). Safe: the machine does
  nothing more. -/
  | runFaulted
  deriving DecidableEq, Repr

/-- Why an instruction has no meaning. -/
inductive Refusal where
  /-- Raised by an arm of `exec` whose instruction is not modelled; no arm raises it. Safe: nothing follows from it. -/
  | notModelled (mnemonic : String)
  deriving DecidableEq, Repr

/-- The memory_array: `len` is N, the number of words (R8, R22), and `cells` maps addresses to Words (R45) in one
canonical form, `Memory.wf` of Machine/Ops.lean: addresses strictly rising and below `len`, no cell equal to
`Memory.blank`. -/
structure Memory where
  len : Nat
  cells : List (Nat × Word)
  deriving DecidableEq, Repr

/-- What an address below `len` that is not listed holds: the word 0, only so that equal memories are equal data. Every
word is written by the load (R192), a loaded 0 by leaving it out, so no program reads an unwritten word. DESIGN CHOICE
(log entry 3); unsafe for a state that no load built. -/
def Memory.blank : Word := 0

/-- The state of the CORE: R20. -/
structure State where
  /-- `M[0..N-1]`: R22. -/
  mem : Memory
  /-- `PC`: R23, "a model may hold PC as a natural number". -/
  pc : Nat
  /-- `RS`: R27. -/
  rs : RunState
  /-- `FR`, NONE or a record: R28. -/
  fr : Option FaultRecord
  /-- `INQ`, read-only during a run: R29. -/
  inq : List Word
  /-- `IC`, the index of the next input: R29. -/
  ic : Nat
  /-- `OUT`, append-only: R30. -/
  out : List Word
  deriving DecidableEq, Repr

/-- The state with no program loaded: every field as R38 gives it, `M` and `INQ`, which are the launch's parameters,
empty. DESIGN CHOICE (log entry 1); unsafe for a claim about this state alone. `load` of Machine/Loader.lean gives the state at the start of a run (R190). -/
def State.reset : State :=
  { mem := ⟨0, []⟩, pc := 0, rs := .running, fr := none, inq := [], ic := 0, out := [] }

end Sys2Proof.Machine
end

