-- ==== Sys2Proof/Machine/Ops.lean ====
section
/-!
DEFINITION. The named operations over the state: the memory_array and its ports (20_memory.md), the program_counter
(R88), the input and output sequences, the halt transition, and FAULT ENTRY (R170). There is no return from a fault
(R172), so no operation undoes `State.enterFault`.
-/

namespace Sys2Proof.Machine

/-! ### The memory_array -/

/-- The word a list of cells holds at an address. -/
def Memory.lookup : List (Nat × Word) → Nat → Word
  | [], _ => Memory.blank
  | (b, v) :: cs, a => if a = b then v else Memory.lookup cs a

/-- The cells without any at address `a`. -/
def Memory.erase : List (Nat × Word) → Nat → List (Nat × Word)
  | [], _ => []
  | (b, v) :: cs, a => if a = b then Memory.erase cs a else (b, v) :: Memory.erase cs a

/-- The cells with one more, before the first cell of a higher address. -/
def Memory.place : List (Nat × Word) → Nat → Word → List (Nat × Word)
  | [], a, v => [(a, v)]
  | (b, u) :: cs, a, v => if a < b then (a, v) :: (b, u) :: cs else (b, u) :: Memory.place cs a v

/-- The cells after the word at `a` became `v`: no cell where the word is `blank`. -/
def Memory.update (cs : List (Nat × Word)) (a : Nat) (v : Word) : List (Nat × Word) :=
  if v = Memory.blank then Memory.erase cs a else Memory.place (Memory.erase cs a) a v

/-- The cells are in canonical form, no address below `lo`. -/
def Memory.cellsWf (len : Nat) : Nat → List (Nat × Word) → Bool
  | _, [] => true
  | lo, (a, v) :: cs => decide (lo ≤ a) && decide (a < len) && decide (v ≠ Memory.blank) && Memory.cellsWf len (a + 1) cs

/-- The canonical form of a memory: addresses strictly rising and below N, no cell equal to `blank`. -/
def Memory.wf (m : Memory) : Bool := Memory.cellsWf m.len 0 m.cells

/-- "An address a is valid exactly when `0 <= a < N`": R42. Addresses are compared as integers (92_eei_decisions.md
D29). -/
abbrev Memory.inBounds (m : Memory) (a : Int) : Prop := 0 ≤ a ∧ a < (m.len : Int)

/-- The read port: `oob` (none) outside `[0, N)`, else `M[a]`. R57. -/
def Memory.read (m : Memory) (a : Int) : Option Word :=
  if m.inBounds a then some (Memory.lookup m.cells a.toNat) else none

/-- The write port: R57. The engine writes only at valid addresses (R14); at another address nothing is written and
the memory does not grow (R42, R49). -/
def Memory.write (m : Memory) (a : Int) (v : Word) : Memory :=
  if m.inBounds a then { m with cells := Memory.update m.cells a.toNat v } else m

/-- The cells of consecutive words from address `a` on. -/
def Memory.cellsFrom : Nat → List Word → List (Nat × Word)
  | _, [] => []
  | a, v :: vs => if v = Memory.blank then Memory.cellsFrom (a + 1) vs else (a, v) :: Memory.cellsFrom (a + 1) vs

/-- The load port: the memory whose word i is the i-th word of the image and whose N is the image's length. R57,
R192. -/
def Memory.ofWords (image : List Word) : Memory := ⟨image.length, Memory.cellsFrom 0 image⟩

/-- The memory as R22 puts it, "an ordered, fixed-length sequence" of N words. -/
def Memory.words (m : Memory) : List Word := (List.range m.len).map (Memory.lookup m.cells)

/-- At least `n` words. Used only to load from outside the machine (`State.withFetchWord`); a step never changes N
(R49). -/
def Memory.growTo (m : Memory) (n : Nat) : Memory := { m with len := max m.len n }

/-- Consecutive words written from address `a` on. -/
def Memory.writeFrom : Memory → Nat → List Word → Memory
  | m, _, [] => m
  | m, a, v :: vs => Memory.writeFrom (m.write a v) (a + 1) vs

/-- `MemRead(a, 1, k)`: R14. -/
def memRead (m : Memory) (a : Int) (k : Access) : Except Cause Word :=
  match m.read a with
  | some v => .ok v
  | none => .error (.outOfBounds a k)

/-! ### The program_counter -/

/-- The program_counter's input `next`: R88. -/
inductive NextPc where
  | hold
  | seq (len : Nat)
  | load (target : Nat)
  deriving DecidableEq, Repr

/-- The program counter after a step: R88. It never wraps (R26). -/
def nextPc (n : NextPc) (pc : Nat) : Nat :=
  match n with
  | .hold => pc
  | .seq len => pc + len
  | .load target => target

/-! ### Named changes of the state -/

/-- Apply the program_counter's `next`, the last update of a step: R24, R88. -/
def State.advance (s : State) (n : NextPc) : State := { s with pc := nextPc n s.pc }

/-- `MemWrite(a, 1, v)`: R14. -/
def State.store (s : State) (a : Int) (v : Word) : State := { s with mem := s.mem.write a v }

/-- The front of the input queue, none where the queue is empty: R29. DESIGN CHOICE (log entry 5): a cursor past the
end, which no run reaches, is an empty queue; safe. -/
def State.frontInput (s : State) : Option Word := s.inq[s.ic]?

/-- A pop of the input queue, `IC <- IC + 1`: R29. -/
def State.popInput (s : State) : State := { s with ic := s.ic + 1 }

/-- `OUT <- OUT ++ [v]`: R121. -/
def State.emit (s : State) (v : Word) : State := { s with out := s.out ++ [v] }

/-- `RS <- HALTED`: R150. -/
def State.halt (s : State) : State := { s with rs := .halted }

/-! ### Fault entry -/

/-- The opcode a fault record holds for an instruction word: `word mod 100`, NONE for a negative word (R28). -/
def recordedOpcode (w : Int) : Option Nat :=
  if (decodeWord w).neg then none else some (decodeWord w).opcode

/-- The fault record of a step at state `s`: R28. The word is `M[pc]`, and NONE exactly when the fetch itself was out
of bounds. DEDUCED (log entry 9): the word is read at fault entry, where memory is as at the fetch (R51); safe. -/
def faultRecord (s : State) (c : Cause) : FaultRecord :=
  { cause := c, pc := s.pc, word := s.mem.read s.pc, opcode := (s.mem.read s.pc).bind recordedOpcode }

/-- FAULT ENTRY, `raise`: "it sets `RS <- FAULTED` and `FR <- F` ... and makes no other change" (R170, R14). -/
def State.enterFault (s : State) (c : Cause) : State := { s with rs := .faulted, fr := some (faultRecord s c) }

/-- The fault codes: R160. -/
def Cause.code : Cause → Nat
  | .unknownOpcode => 1
  | .outOfBounds _ _ => 2
  | .inputUnderflow => 3
  | .illegalMode => 4
  | .arithmeticOverflow _ => 5

/-- The field `code` of a fault record: R28. -/
def FaultRecord.code (r : FaultRecord) : Nat := r.cause.code

/-- The field `addr` of a fault record, present for an OutOfBoundsFault: R28. -/
def FaultRecord.addr (r : FaultRecord) : Option Int :=
  match r.cause with
  | .outOfBounds a _ => some a
  | .unknownOpcode | .inputUnderflow | .illegalMode | .arithmeticOverflow _ => none

/-- The field `access` of a fault record, present for an OutOfBoundsFault: R28. -/
def FaultRecord.access (r : FaultRecord) : Option Access :=
  match r.cause with
  | .outOfBounds _ k => some k
  | .unknownOpcode | .inputUnderflow | .illegalMode | .arithmeticOverflow _ => none

/-- The field `result` of a fault record, present for an ArithmeticOverflowFault: R28. -/
def FaultRecord.result (r : FaultRecord) : Option Int :=
  match r.cause with
  | .arithmeticOverflow v => some v
  | .unknownOpcode | .outOfBounds _ _ | .inputUnderflow | .illegalMode => none

/-- The number of a run state: R27. -/
def RunState.code : RunState → Nat
  | .running => 0
  | .halted => 1
  | .faulted => 2

/-- How an instruction's rule ends a step: with its effect, or by the entry of the fault it raised, from the state
before the step (R14, R170). -/
def finish (s : State) (effect : Except Cause State) : Host.Outcome State Fault Refusal :=
  match effect with
  | .ok t => .next t
  | .error c => .next (s.enterFault c)

end Sys2Proof.Machine
end

