-- ==== Sys2Proof/Machine/Flags.lean ====
section
/-!
DEFINITION. What stands in the place of flags. The CORE has none (R34): a comparison writes a truth word to memory, a
conditional jump tests an operand against zero, and an arithmetic result that is not a Word is a fault.
-/

namespace Sys2Proof.Machine

/-- "The Word 1 for true and the Word 0 for false": R142. -/
def truthWord (b : Bool) : Word := if b then 1 else 0

/-- Jump-if-true's test, `c != 0`: R130. -/
def jumpsIfTrue (c : Int) : Bool := decide (c ≠ 0)

/-- Jump-if-false's test, `c = 0`: R131. -/
def jumpsIfFalse (c : Int) : Bool := decide (c = 0)

/-- An exact result, or the fault of one that is not a Word; "never wrapped, saturated or truncated": R112. -/
def checkFits (r : Int) : Except Cause Word := if fits r then .ok r else .error (.arithmeticOverflow r)

end Sys2Proof.Machine
end

