-- ==== Sys2Proof/Machine/Operands.lean ====
section
/-!
DEFINITION. The operand_resolver (R84, R85), the check of a destination (R86) and of a jump's target (R132), and the
operand shapes the instructions share. Sources are resolved parameter 1 first (R95), then the destination is checked
(R168).
-/

namespace Sys2Proof.Machine

/-- `resolve(raw, mode)`: R85. -/
def resolve (m : Memory) (raw : Word) (mode : Mode) : Except Cause Word :=
  match mode with
  | .immediate => .ok raw
  | .position => memRead m raw .read

/-- `checkDst(a)`: R86. A destination is the raw address whatever its mode digit (R65, R72). -/
def checkDst (m : Memory) (a : Int) : Except Cause Unit :=
  if m.inBounds a then .ok () else .error (.outOfBounds a .write)

/-- The check of a taken jump's target, which is the PC it loads: R130, R132 (d). -/
def checkTarget (m : Memory) (t : Int) : Except Cause Nat :=
  if m.inBounds t then .ok t.toNat else .error (.outOfBounds t .jump)

/-- Two source parameters, p1 before p2: R95. -/
def resolveTwo (m : Memory) (ms : Modes) (p1 p2 : Word) : Except Cause (Word × Word) := do
  let a ← resolve m p1 ms.m1
  let b ← resolve m p2 ms.m2
  return (a, b)

end Sys2Proof.Machine
end

