-- ==== Sys2Proof/Machine/Arithmetic.lean ====
section
/-!
DEFINITION. ADD and MUL: 41_arithmetic.md.
-/

namespace Sys2Proof.Machine

/-- The common form of R110 and R111: resolve p1 and p2, check p3, compute exactly, store a result that is a Word,
and advance by the instruction's 4 words. -/
def arithmetic (f : Int → Int → Int) (ms : Modes) (p1 p2 p3 : Word) (s : State) : Except Cause State := do
  let (a, b) ← resolveTwo s.mem ms p1 p2
  checkDst s.mem p3
  let r ← checkFits (f a b)
  return (s.store p3 r).advance (.seq 4)

/-- ADD: R110. -/
def execAdd (ms : Modes) (p1 p2 p3 : Word) (s : State) : Host.Outcome State Fault Refusal :=
  finish s (arithmetic (fun a b => a + b) ms p1 p2 p3 s)

/-- MUL: R111. -/
def execMul (ms : Modes) (p1 p2 p3 : Word) (s : State) : Host.Outcome State Fault Refusal :=
  finish s (arithmetic (fun a b => a * b) ms p1 p2 p3 s)

end Sys2Proof.Machine
end

