-- ==== Sys2Proof/Machine/Compare.lean ====
section
/-!
DEFINITION. LT and EQ: 44_compare.md.
-/

namespace Sys2Proof.Machine

/-- The common form of R140 and R141: resolve p1 and p2, check p3, store the truth word of the comparison, and
advance by the instruction's 4 words. -/
def comparison (rel : Int → Int → Bool) (ms : Modes) (p1 p2 p3 : Word) (s : State) : Except Cause State := do
  let (a, b) ← resolveTwo s.mem ms p1 p2
  checkDst s.mem p3
  return (s.store p3 (truthWord (rel a b))).advance (.seq 4)

/-- LT, a signed comparison: R140, R142. -/
def execLt (ms : Modes) (p1 p2 p3 : Word) (s : State) : Host.Outcome State Fault Refusal :=
  finish s (comparison (fun a b => decide (a < b)) ms p1 p2 p3 s)

/-- EQ: R141, R142. -/
def execEq (ms : Modes) (p1 p2 p3 : Word) (s : State) : Host.Outcome State Fault Refusal :=
  finish s (comparison (fun a b => decide (a = b)) ms p1 p2 p3 s)

end Sys2Proof.Machine
end

