-- ==== Sys2Proof/Machine/Halt.lean ====
section
/-!
DEFINITION. HALT and the halt_detector: 45_halt.md, R89, R90.
-/

namespace Sys2Proof.Machine

/-- The halt_detector's output `halt_req`, a function of the decoded instruction word alone: R89, R32. -/
def haltReq (d : Decoded) : Bool := d.known && d.modesOk && decide (d.opcode = 99)

/-- The halt_detector's output `done`: R89. -/
def State.done (s : State) : Bool := decide (s.rs = .halted) || decide (s.rs = .faulted)

/-- HALT: R150. The program_counter holds (R88), and nothing but `RS` changes. -/
def execHalt (_ms : Modes) (s : State) : Host.Outcome State Fault Refusal :=
  finish s (.ok (s.halt.advance .hold))

end Sys2Proof.Machine
end

