-- ==== Sys2Proof/Machine/Io.lean ====
section
/-!
DEFINITION. IN and OUT: 42_io.md.
-/

namespace Sys2Proof.Machine

/-- The queue's front, or the fault of an empty queue: R163, "never a default value". -/
def takeInput (s : State) : Except Cause Word :=
  match s.frontInput with
  | some v => .ok v
  | none => .error .inputUnderflow

/-- The effect of IN: the destination is checked before the queue (R120). -/
def inputEffect (p1 : Word) (s : State) : Except Cause State := do
  checkDst s.mem p1
  let v ← takeInput s
  return (s.popInput.store p1 v).advance (.seq 2)

/-- IN: R120. Its mode digits are ignored (R71, R72). -/
def execIn (_ms : Modes) (p1 : Word) (s : State) : Host.Outcome State Fault Refusal :=
  finish s (inputEffect p1 s)

/-- The effect of OUT: R121. -/
def outputEffect (ms : Modes) (p1 : Word) (s : State) : Except Cause State := do
  let v ← resolve s.mem p1 ms.m1
  return (s.emit v).advance (.seq 2)

/-- OUT: R121. -/
def execOut (ms : Modes) (p1 : Word) (s : State) : Host.Outcome State Fault Refusal :=
  finish s (outputEffect ms p1 s)

end Sys2Proof.Machine
end

