-- ==== Sys2Proof/Machine/Jumps.lean ====
section
/-!
DEFINITION. JT and JF: 43_jumps.md.
-/

namespace Sys2Proof.Machine

/-- The common form of R130 and R131: both operands are resolved whether or not the jump is taken (R132 (e)); a taken
jump loads its target after the bounds check, an untaken one passes the instruction's 3 words. -/
def jump (taken : Word → Bool) (ms : Modes) (p1 p2 : Word) (s : State) : Except Cause State := do
  let (c, t) ← resolveTwo s.mem ms p1 p2
  if taken c then
    let target ← checkTarget s.mem t
    return s.advance (.load target)
  else
    return s.advance (.seq 3)

/-- JT: R130. -/
def execJt (ms : Modes) (p1 p2 : Word) (s : State) : Host.Outcome State Fault Refusal :=
  finish s (jump jumpsIfTrue ms p1 p2 s)

/-- JF: R131. -/
def execJf (ms : Modes) (p1 p2 : Word) (s : State) : Host.Outcome State Fault Refusal :=
  finish s (jump jumpsIfFalse ms p1 p2 s)

end Sys2Proof.Machine
end

