-- ==== Sys2Proof/Machine/Dispatch.lean ====
section
/-!
DEFINITION. The dispatch of R93: one arm per instruction, one meaning per arm.
-/

namespace Sys2Proof.Machine

/-- The execution of a fetched instruction: the `case opcode of` of R93. -/
def exec (i : Instr) (s : State) : Host.Outcome State Fault Refusal :=
  match i with
  | .add ms p1 p2 p3 => Sys2Proof.Machine.execAdd ms p1 p2 p3 s
  | .mul ms p1 p2 p3 => Sys2Proof.Machine.execMul ms p1 p2 p3 s
  | .inp ms p1 => Sys2Proof.Machine.execIn ms p1 s
  | .out ms p1 => Sys2Proof.Machine.execOut ms p1 s
  | .jt ms p1 p2 => Sys2Proof.Machine.execJt ms p1 p2 s
  | .jf ms p1 p2 => Sys2Proof.Machine.execJf ms p1 p2 s
  | .lt ms p1 p2 p3 => Sys2Proof.Machine.execLt ms p1 p2 p3 s
  | .eq ms p1 p2 p3 => Sys2Proof.Machine.execEq ms p1 p2 p3 s
  | .halt ms => Sys2Proof.Machine.execHalt ms s

end Sys2Proof.Machine
end

