-- ==== Sys2Proof/Machine/Fetch.lean ====
section
/-!
DEFINITION. Instruction fetch: the first half of the step of R93, up to the parameter words, and the placing of an
instruction where the next step fetches it.
-/

namespace Sys2Proof.Machine

/-- The fault the engine raises for what the decoder found, at program counter `pc`: R93, R94, R161, R162, R164. -/
def causeOfDecodeError (pc : Nat) : DecodeError → Cause
  | .noWord => .outOfBounds pc .fetch
  | .unknownOpcode => .unknownOpcode
  | .illegalMode => .illegalMode
  | .missingParam i => .outOfBounds ((pc : Int) + i) .param

/-- The parameter word `M[pc + i]`: R94. The address is computed exactly (92_eei_decisions.md D29). -/
def fetchParam (m : Memory) (pc i : Nat) : Except Cause Word := memRead m ((pc : Int) + i) .param

/-- Fetch, decode, check, and fetch the parameter words, in the order of R93 and of R168 items 1 to 5. HALT and a word
that faults fetch no parameter (R94). -/
def fetchInstr (m : Memory) (pc : Nat) : Except Cause Instr :=
  match memRead m pc .fetch with
  | .error c => .error c
  | .ok w =>
    match checkHead (decodeWord w) with
    | .error e => .error (causeOfDecodeError pc e)
    | .ok (op, ms) => buildInstr (fetchParam m pc) ms op

/-- The words of the longest instruction stored from PC on, N raised where they would not fit, and the machine made
RUNNING: everything the next fetch takes, and nothing else. DESIGN CHOICE (log entry 6); unsafe for a
claim that N is the loaded N. -/
def placeAtPc (s : State) (ws : List Word) : State :=
  { s with mem := (s.mem.growTo (s.pc + ws.length)).writeFrom s.pc ws, rs := .running, fr := none }

end Sys2Proof.Machine
end

