-- ==== Sys2Proof/Machine/Step.lean ====
section
/-!
DEFINITION. One step of the CORE: R92, R93.
-/

namespace Sys2Proof.Machine

/-- One step. "A step is enabled exactly when `RS = RUNNING`" (R92); a fault is entered, not returned (R170). -/
def step (s : State) : Host.Outcome State Fault Refusal :=
  match s.rs with
  | .halted => .fault .runHalted
  | .faulted => .fault .runFaulted
  | .running =>
    match fetchInstr s.mem s.pc with
    | .error c => .next (s.enterFault c)
    | .ok i => exec i s

/-- `s` with the instruction of the bits `w` where `step` fetches next (log entries 6 and 7). -/
def State.withFetchWord (s : State) (nbits w : Nat) : State := placeAtPc s (tableWords nbits w)

end Sys2Proof.Machine
end

