-- ==== Sys2Proof/Machine/Loader.lean ====
section
/-!
DEFINITION. The Loader, on the host's side of the CORE, as far as the spec fixes it: the program text's grammar (R195),
LoadError (R196), and the initial state `load` builds (R190 to R193). A text is a list of characters.
-/

namespace Sys2Proof.Machine

/-- Why a `load` gives no state: R166, R196. DESIGN CHOICE (log entry 12): the spec names one LoadError, the model its
three grounds, the first met from the left, the inputs last; safe. -/
inductive LoadError where
  | notAnInteger
  | tokenNotAWord
  | inputNotAWord
  deriving DecidableEq, Repr

/-- `ws ::= " " | TAB | CR | LF`: R195. -/
def isSpace (c : Char) : Bool := c = ' ' || c = '\t' || c = '\r' || c = '\n'

/-- `digit`: R195. -/
def isDecimalDigit (c : Char) : Bool := decide ('0'.toNat ≤ c.toNat) && decide (c.toNat ≤ '9'.toNat)

/-- The decimal value of digits, after `acc`. -/
def digitsValue (acc : Nat) : List Char → Nat
  | [] => acc
  | c :: cs => digitsValue (10 * acc + (c.toNat - '0'.toNat)) cs

/-- `digit+` and its value: R195, leading zeros allowed. -/
def parseDigits (cs : List Char) : Option Nat :=
  if !cs.isEmpty && cs.all isDecimalDigit then some (digitsValue 0 cs) else none

/-- `integer ::= "-"? digit+`, no "+": R195. -/
def parseInteger (cs : List Char) : Option Int :=
  match cs with
  | '-' :: ds => (parseDigits ds).map (fun n => -(n : Int))
  | ds => (parseDigits ds).map (fun n => (n : Int))

/-- A token without the whitespace around it: R195. -/
def trimSpace (cs : List Char) : List Char := ((cs.dropWhile isSpace).reverse.dropWhile isSpace).reverse

/-- The tokens of a text, between its commas; always at least one: R195. -/
def splitCommas : List Char → List (List Char)
  | [] => [[]]
  | c :: cs =>
    if c = ',' then [] :: splitCommas cs
    else
      match splitCommas cs with
      | [] => [[c]]
      | t :: ts => (c :: t) :: ts

/-- The Word of a token: R195, R196. -/
def parseToken (t : List Char) : Except LoadError Word :=
  match parseInteger (trimSpace t) with
  | none => .error .notAnInteger
  | some v => if fits v then .ok v else .error .tokenNotAWord

/-- The Words of a program text: R195, R196. -/
def parseProgram (text : List Char) : Except LoadError (List Word) := (splitCommas text).mapM parseToken

/-- The state at the start of a run whose image and inputs are given: R38, R191 to R193. -/
def launch (image inputs : List Word) : State :=
  { mem := Memory.ofWords image, pc := 0, rs := .running, fr := none, inq := inputs, ic := 0, out := [] }

/-- `load(programText, initialInputs)`: R190, R196, R197. -/
def load (text : List Char) (inputs : List Int) : Except LoadError State := do
  let image ← parseProgram text
  if ∀ v ∈ inputs, fits v then return launch image inputs else throw .inputNotAWord

end Sys2Proof.Machine
end

