-- ==== Sys2Proof/Machine/Run.lean ====
section
/-!
DEFINITION. The host's `execute` (R197) over a bounded number of steps, and what the host sees at the end of a run
(R200, R201).
-/

namespace Sys2Proof.Machine

/-- What `execute` returns: R197, R201. -/
inductive RunResult where
  | output (out : List Word)
  | fault (record : FaultRecord)
  deriving DecidableEq, Repr

/-- The result of a run at state `s`: "`OUT` when halted; `FR` when faulted; nothing while running" (R197). -/
def runResult (s : State) : Option RunResult :=
  match s.rs, s.fr with
  | .halted, _ => some (.output s.out)
  | .faulted, some r => some (.fault r)
  | .faulted, none => none
  | .running, _ => none

/-- The state after `n` steps, or after fewer where the run ends before: a state with no enabled step stays. -/
def runSteps : Nat → State → State
  | 0, s => s
  | n + 1, s =>
    match step s with
    | .next t => runSteps n t
    | .fault _ => s
    | .refused _ => s

/-- `execute(engine)` seen for `n` steps, DESIGN CHOICE (log entry 13), safe: its result once the run has ended within them, none while it has not (a run
need not end: R99). -/
def execute (n : Nat) (s : State) : Option RunResult := runResult (runSteps n s)

end Sys2Proof.Machine
end

