-- ==== Sys2Proof/Safety.lean ====
section
/-!
DEFINITION. The terms the statements are made in: what an operand is worth, what a storing instruction leaves behind,
the invariants of a run, what a fault record must say, the program text's grammar, and what a run takes in and puts
out. Each says in the spec's words what the machine's functions compute.
-/

namespace Sys2Proof.Machine

/-! ### Operands -/

/-- The value of a source parameter, by its mode: R65. -/
def OperandIs (m : Memory) (mode : Mode) (raw v : Word) : Prop :=
  match mode with
  | .immediate => v = raw
  | .position => m.read raw = some v

/-- A source parameter that faults: in Position mode, its raw value no valid address (R65, R162 READ). -/
def OperandBad (m : Memory) (mode : Mode) (raw : Word) : Prop := mode = .position ∧ ¬ m.inBounds raw

/-- The source parameters of an instruction with their modes: R66. -/
def sourcesOf : Instr → List (Mode × Word)
  | .add ms p1 p2 _ => [(ms.m1, p1), (ms.m2, p2)]
  | .mul ms p1 p2 _ => [(ms.m1, p1), (ms.m2, p2)]
  | .inp _ _ => []
  | .out ms p1 => [(ms.m1, p1)]
  | .jt ms p1 p2 => [(ms.m1, p1), (ms.m2, p2)]
  | .jf ms p1 p2 => [(ms.m1, p1), (ms.m2, p2)]
  | .lt ms p1 p2 _ => [(ms.m1, p1), (ms.m2, p2)]
  | .eq ms p1 p2 _ => [(ms.m1, p1), (ms.m2, p2)]
  | .halt _ => []

/-- The destination parameter of an instruction: R66. -/
def destinationOf : Instr → Option Word
  | .add _ _ _ p3 => some p3
  | .mul _ _ _ p3 => some p3
  | .inp _ p1 => some p1
  | .out _ _ => none
  | .jt _ _ _ => none
  | .jf _ _ _ => none
  | .lt _ _ _ p3 => some p3
  | .eq _ _ _ p3 => some p3
  | .halt _ => none

/-- The instruction word `CBAop` of an opcode and three modes: R61. -/
def instructionWord (opcode : Nat) (ms : Modes) : Word :=
  ((opcode + 100 * modeDigit ms.m1 + 1000 * modeDigit ms.m2 + 10000 * modeDigit ms.m3 : Nat) : Int)

/-- The opcode of a word that is not negative is a legal one: R66. -/
def LegalOpcode (w : Int) : Prop :=
  w % 100 = 1 ∨ w % 100 = 2 ∨ w % 100 = 3 ∨ w % 100 = 4 ∨ w % 100 = 5 ∨ w % 100 = 6 ∨ w % 100 = 7 ∨ w % 100 = 8 ∨
    w % 100 = 99

/-- The mode digits of a word that is not negative are 0 or 1 and it has no excess digits: R68, R69, R77. -/
def LegalModes (w : Int) : Prop :=
  w < 100000 ∧ w / 100 % 10 ≤ 1 ∧ w / 1000 % 10 ≤ 1 ∧ w / 10000 % 10 ≤ 1

/-! ### What a storing instruction leaves behind -/

/-- From `s` to `t` the word at `a` became `v`, the PC passed `len` words, and nothing else changed but, where a
statement says so, `IC`. -/
structure StoredAndAdvanced (s t : State) (a : Int) (v : Word) (len : Nat) : Prop where
  stored : t.mem.read a = some v
  others : ∀ x : Int, x ≠ a → t.mem.read x = s.mem.read x
  length : t.mem.len = s.mem.len
  pc : t.pc = s.pc + len
  rs : t.rs = s.rs
  fr : t.fr = s.fr
  inq : t.inq = s.inq
  out : t.out = s.out

/-! ### Invariants of a run -/

/-- What every state of a run satisfies: the memory in canonical form, `0 <= PC <= N` (R23), `0 <= IC <= |INQ|` (R20),
a record exactly when FAULTED (R28), and every value held a Word (R12). -/
structure Inv (s : State) : Prop where
  memory : s.mem.wf = true
  pcInRange : s.pc ≤ s.mem.len
  cursor : s.ic ≤ s.inq.length
  record : s.fr.isSome = true ↔ s.rs = .faulted
  words : ∀ (a : Int) (v : Word), s.mem.read a = some v → fits v
  inputs : ∀ v ∈ s.inq, fits v
  outputs : ∀ v ∈ s.out, fits v

/-- The opcode of the word at PC, as a fault record holds it: R28. -/
def opcodeAtPc (s : State) : Option Nat := (s.mem.read s.pc).bind recordedOpcode

/-- The condition under which a cause is raised, read off the state: R161 to R165. R163's is IC = |INQ|; a cursor past
the queue's end counts as well, DESIGN CHOICE (log entry 5), safe. -/
def CauseHolds (s : State) : Cause → Prop
  | .unknownOpcode => ∃ w, s.mem.read s.pc = some w ∧ (decodeWord w).known = false
  | .outOfBounds a k =>
    ¬ s.mem.inBounds a ∧ (k = .fetch ↔ s.mem.read s.pc = none) ∧ (k = .fetch → a = (s.pc : Int))
  | .inputUnderflow => s.inq.length ≤ s.ic ∧ opcodeAtPc s = some 3
  | .illegalMode =>
    ∃ w, s.mem.read s.pc = some w ∧ (decodeWord w).known = true ∧ (decodeWord w).modesOk = false
  | .arithmeticOverflow r => ¬ fits r ∧ (opcodeAtPc s = some 1 ∨ opcodeAtPc s = some 2)

/-- A fault record exists exactly in FAULTED, and says what the state shows: the PC, word and opcode of the faulting
instruction, which the precise fault left in place, and a cause that holds. R28, R170. -/
def RecordSound (s : State) : Prop :=
  (s.fr.isSome = true ↔ s.rs = .faulted) ∧
  ∀ r, s.fr = some r →
    r.pc = s.pc ∧ r.word = s.mem.read s.pc ∧ r.opcode = opcodeAtPc s ∧ CauseHolds s r.cause

/-- The faults an instruction's own rule can raise: the table of R167 without its PARAM column, which is the fetch's. -/
def MayRaise (i : Instr) : Cause → Prop
  | .unknownOpcode => False
  | .illegalMode => False
  | .outOfBounds _ .fetch => False
  | .outOfBounds _ .param => False
  | .outOfBounds a .read => (Mode.position, a) ∈ sourcesOf i
  | .outOfBounds a .write => destinationOf i = some a
  | .outOfBounds _ .jump => i.op = .jt ∨ i.op = .jf
  | .inputUnderflow => i.op = .inp
  | .arithmeticOverflow _ => i.op = .add ∨ i.op = .mul

/-! ### The program text -/

/-- `integer ::= "-"? digit+` and its decimal value: R195. -/
def IntegerText (cs : List Char) (v : Int) : Prop :=
  ∃ ds : List Char, ds ≠ [] ∧ (∀ c ∈ ds, isDecimalDigit c = true) ∧
    ((cs = ds ∧ v = (digitsValue 0 ds : Int)) ∨ (cs = '-' :: ds ∧ v = -(digitsValue 0 ds : Int)))

/-- `token ::= ws* integer ws*`: R195. -/
def TokenText (cs : List Char) (v : Int) : Prop :=
  ∃ l m r : List Char, (∀ c ∈ l, isSpace c = true) ∧ (∀ c ∈ r, isSpace c = true) ∧ cs = l ++ m ++ r ∧
    IntegerText m v

/-- `programText ::= token ( "," token )*`, with the values of its tokens: R195. -/
inductive ProgramText : List Char → List Int → Prop where
  | single {t : List Char} {v : Int} : TokenText t v → ProgramText t [v]
  | more {t rest : List Char} {v : Int} {vs : List Int} :
      TokenText t v → ProgramText rest vs → ProgramText (t ++ ',' :: rest) (v :: vs)

/-! ### What a run takes in and puts out -/

/-- The word an IN executed at `s`, with next state `t`, received: the word its destination then holds (R120). -/
def receivedBy (s t : State) : List Word :=
  match fetchInstr s.mem s.pc with
  | .ok (.inp _ p1) => if t.rs = .faulted then [] else (t.mem.read p1).toList
  | _ => []

/-- The word an OUT executed at `s`, with next state `t`, put out: its operand at `s` (R121). -/
def emittedBy (s t : State) : List Word :=
  match fetchInstr s.mem s.pc with
  | .ok (.out ms p1) =>
    if t.rs = .faulted then []
    else
      match ms.m1 with
      | .immediate => [p1]
      | .position => (s.mem.read p1).toList
  | _ => []

/-- The words received by the INs of the first `n` steps from `s`, in execution order. -/
def received : Nat → State → List Word
  | 0, _ => []
  | n + 1, s =>
    match step s with
    | .next t => receivedBy s t ++ received n t
    | .fault _ => []
    | .refused _ => []

/-- The words put out by the OUTs of the first `n` steps from `s`, in execution order. -/
def emitted : Nat → State → List Word
  | 0, _ => []
  | n + 1, s =>
    match step s with
    | .next t => emittedBy s t ++ emitted n t
    | .fault _ => []
    | .refused _ => []

end Sys2Proof.Machine
end

