-- ==== Sys2Proof/Certificates/Slice0/Obligations.lean ====
section
/-!
DEFINITION. The statements for the provers. `OperandIs m mode raw v` says that a source parameter is worth v (R65),
`OperandBad` that it faults; `StoredAndAdvanced s t a v len` that from s to t the word at a became v, the PC passed len
words, and no other word, RS, FR, INQ or OUT changed.
-/

open Sys2Proof Sys2Proof.Machine

/-! ### The instruction rules -/

/-- R110, whole: ADD's word and length, its result, what it leaves unchanged, and its faults in their order. -/
def Obligations.AddFollowsItsRule : Prop :=
  ∀ (ms : Modes) (p1 p2 p3 : Int) (s : State),
    encode (.add ms p1 p2 p3) = [instructionWord 1 ms, p1, p2, p3] ∧
    (∀ a b : Int, OperandIs s.mem ms.m1 p1 a → OperandIs s.mem ms.m2 p2 b → s.mem.inBounds p3 → fits (a + b) →
      ∃ t, exec (.add ms p1 p2 p3) s = .next t ∧ StoredAndAdvanced s t p3 (a + b) 4 ∧ t.ic = s.ic) ∧
    (OperandBad s.mem ms.m1 p1 →
      exec (.add ms p1 p2 p3) s = .next (s.enterFault (.outOfBounds p1 .read))) ∧
    (∀ a : Int, OperandIs s.mem ms.m1 p1 a → OperandBad s.mem ms.m2 p2 →
      exec (.add ms p1 p2 p3) s = .next (s.enterFault (.outOfBounds p2 .read))) ∧
    (∀ a b : Int, OperandIs s.mem ms.m1 p1 a → OperandIs s.mem ms.m2 p2 b → ¬ s.mem.inBounds p3 →
      exec (.add ms p1 p2 p3) s = .next (s.enterFault (.outOfBounds p3 .write))) ∧
    (∀ a b : Int, OperandIs s.mem ms.m1 p1 a → OperandIs s.mem ms.m2 p2 b → s.mem.inBounds p3 → ¬ fits (a + b) →
      exec (.add ms p1 p2 p3) s = .next (s.enterFault (.arithmeticOverflow (a + b))))

/-- R111, whole: MUL's word and length, its result, what it leaves unchanged, and its faults in their order. -/
def Obligations.MulFollowsItsRule : Prop :=
  ∀ (ms : Modes) (p1 p2 p3 : Int) (s : State),
    encode (.mul ms p1 p2 p3) = [instructionWord 2 ms, p1, p2, p3] ∧
    (∀ a b : Int, OperandIs s.mem ms.m1 p1 a → OperandIs s.mem ms.m2 p2 b → s.mem.inBounds p3 → fits (a * b) →
      ∃ t, exec (.mul ms p1 p2 p3) s = .next t ∧ StoredAndAdvanced s t p3 (a * b) 4 ∧ t.ic = s.ic) ∧
    (OperandBad s.mem ms.m1 p1 →
      exec (.mul ms p1 p2 p3) s = .next (s.enterFault (.outOfBounds p1 .read))) ∧
    (∀ a : Int, OperandIs s.mem ms.m1 p1 a → OperandBad s.mem ms.m2 p2 →
      exec (.mul ms p1 p2 p3) s = .next (s.enterFault (.outOfBounds p2 .read))) ∧
    (∀ a b : Int, OperandIs s.mem ms.m1 p1 a → OperandIs s.mem ms.m2 p2 b → ¬ s.mem.inBounds p3 →
      exec (.mul ms p1 p2 p3) s = .next (s.enterFault (.outOfBounds p3 .write))) ∧
    (∀ a b : Int, OperandIs s.mem ms.m1 p1 a → OperandIs s.mem ms.m2 p2 b → s.mem.inBounds p3 → ¬ fits (a * b) →
      exec (.mul ms p1 p2 p3) s = .next (s.enterFault (.arithmeticOverflow (a * b))))

/-- R120, whole: IN's word and length, its result, the input it consumes, and its faults in their order. The queue is
empty exactly when IC = |INQ| (R29). -/
def Obligations.InFollowsItsRule : Prop :=
  ∀ (ms : Modes) (p1 : Int) (s : State),
    encode (.inp ms p1) = [instructionWord 3 ms, p1] ∧
    (∀ v : Int, s.mem.inBounds p1 → s.inq[s.ic]? = some v →
      ∃ t, exec (.inp ms p1) s = .next t ∧ StoredAndAdvanced s t p1 v 2 ∧ t.ic = s.ic + 1) ∧
    (¬ s.mem.inBounds p1 → exec (.inp ms p1) s = .next (s.enterFault (.outOfBounds p1 .write))) ∧
    (s.mem.inBounds p1 → s.ic = s.inq.length → exec (.inp ms p1) s = .next (s.enterFault .inputUnderflow))

/-- IN with a cursor past the queue's end, which is in no run (R20), underflows too: the model's choice, DESIGN CHOICE of
log entry 5, and no rule of the spec. -/
def Obligations.InPastTheQueuesEndUnderflows : Prop :=
  ∀ (ms : Modes) (p1 : Int) (s : State), s.mem.inBounds p1 → s.inq.length < s.ic →
    exec (.inp ms p1) s = .next (s.enterFault .inputUnderflow)

/-- R121, whole: OUT's word and length, its effect with everything else unchanged, and its fault. -/
def Obligations.OutFollowsItsRule : Prop :=
  ∀ (ms : Modes) (p1 : Int) (s : State),
    encode (.out ms p1) = [instructionWord 4 ms, p1] ∧
    (∀ v : Int, OperandIs s.mem ms.m1 p1 v →
      exec (.out ms p1) s = .next { s with out := s.out ++ [v], pc := s.pc + 2 }) ∧
    (OperandBad s.mem ms.m1 p1 → exec (.out ms p1) s = .next (s.enterFault (.outOfBounds p1 .read)))

/-- R130, whole: JT's word and length, the PC it leaves with everything else unchanged, and its faults in their order. -/
def Obligations.JtFollowsItsRule : Prop :=
  ∀ (ms : Modes) (p1 p2 : Int) (s : State),
    encode (.jt ms p1 p2) = [instructionWord 5 ms, p1, p2] ∧
    (∀ c t : Int, OperandIs s.mem ms.m1 p1 c → OperandIs s.mem ms.m2 p2 t → c ≠ 0 → s.mem.inBounds t →
      exec (.jt ms p1 p2) s = .next { s with pc := t.toNat }) ∧
    (∀ c t : Int, OperandIs s.mem ms.m1 p1 c → OperandIs s.mem ms.m2 p2 t → c = 0 →
      exec (.jt ms p1 p2) s = .next { s with pc := s.pc + 3 }) ∧
    (∀ c t : Int, OperandIs s.mem ms.m1 p1 c → OperandIs s.mem ms.m2 p2 t → c ≠ 0 → ¬ s.mem.inBounds t →
      exec (.jt ms p1 p2) s = .next (s.enterFault (.outOfBounds t .jump))) ∧
    (OperandBad s.mem ms.m1 p1 → exec (.jt ms p1 p2) s = .next (s.enterFault (.outOfBounds p1 .read))) ∧
    (∀ c : Int, OperandIs s.mem ms.m1 p1 c → OperandBad s.mem ms.m2 p2 →
      exec (.jt ms p1 p2) s = .next (s.enterFault (.outOfBounds p2 .read)))

/-- R131, whole: JF's word and length, the PC it leaves with everything else unchanged, and its faults in their order. -/
def Obligations.JfFollowsItsRule : Prop :=
  ∀ (ms : Modes) (p1 p2 : Int) (s : State),
    encode (.jf ms p1 p2) = [instructionWord 6 ms, p1, p2] ∧
    (∀ c t : Int, OperandIs s.mem ms.m1 p1 c → OperandIs s.mem ms.m2 p2 t → c = 0 → s.mem.inBounds t →
      exec (.jf ms p1 p2) s = .next { s with pc := t.toNat }) ∧
    (∀ c t : Int, OperandIs s.mem ms.m1 p1 c → OperandIs s.mem ms.m2 p2 t → c ≠ 0 →
      exec (.jf ms p1 p2) s = .next { s with pc := s.pc + 3 }) ∧
    (∀ c t : Int, OperandIs s.mem ms.m1 p1 c → OperandIs s.mem ms.m2 p2 t → c = 0 → ¬ s.mem.inBounds t →
      exec (.jf ms p1 p2) s = .next (s.enterFault (.outOfBounds t .jump))) ∧
    (OperandBad s.mem ms.m1 p1 → exec (.jf ms p1 p2) s = .next (s.enterFault (.outOfBounds p1 .read))) ∧
    (∀ c : Int, OperandIs s.mem ms.m1 p1 c → OperandBad s.mem ms.m2 p2 →
      exec (.jf ms p1 p2) s = .next (s.enterFault (.outOfBounds p2 .read)))

/-- R140, whole: LT's word and length, its result (1 or 0, by signed comparison), what it leaves unchanged, and its
faults in their order. -/
def Obligations.LtFollowsItsRule : Prop :=
  ∀ (ms : Modes) (p1 p2 p3 : Int) (s : State),
    encode (.lt ms p1 p2 p3) = [instructionWord 7 ms, p1, p2, p3] ∧
    (∀ a b : Int, OperandIs s.mem ms.m1 p1 a → OperandIs s.mem ms.m2 p2 b → s.mem.inBounds p3 →
      ∃ t, exec (.lt ms p1 p2 p3) s = .next t ∧ StoredAndAdvanced s t p3 (if a < b then 1 else 0) 4 ∧ t.ic = s.ic) ∧
    (OperandBad s.mem ms.m1 p1 →
      exec (.lt ms p1 p2 p3) s = .next (s.enterFault (.outOfBounds p1 .read))) ∧
    (∀ a : Int, OperandIs s.mem ms.m1 p1 a → OperandBad s.mem ms.m2 p2 →
      exec (.lt ms p1 p2 p3) s = .next (s.enterFault (.outOfBounds p2 .read))) ∧
    (∀ a b : Int, OperandIs s.mem ms.m1 p1 a → OperandIs s.mem ms.m2 p2 b → ¬ s.mem.inBounds p3 →
      exec (.lt ms p1 p2 p3) s = .next (s.enterFault (.outOfBounds p3 .write)))

/-- R141, whole: EQ's word and length, its result (1 or 0), what it leaves unchanged, and its faults in their order. -/
def Obligations.EqFollowsItsRule : Prop :=
  ∀ (ms : Modes) (p1 p2 p3 : Int) (s : State),
    encode (.eq ms p1 p2 p3) = [instructionWord 8 ms, p1, p2, p3] ∧
    (∀ a b : Int, OperandIs s.mem ms.m1 p1 a → OperandIs s.mem ms.m2 p2 b → s.mem.inBounds p3 →
      ∃ t, exec (.eq ms p1 p2 p3) s = .next t ∧ StoredAndAdvanced s t p3 (if a = b then 1 else 0) 4 ∧ t.ic = s.ic) ∧
    (OperandBad s.mem ms.m1 p1 →
      exec (.eq ms p1 p2 p3) s = .next (s.enterFault (.outOfBounds p1 .read))) ∧
    (∀ a : Int, OperandIs s.mem ms.m1 p1 a → OperandBad s.mem ms.m2 p2 →
      exec (.eq ms p1 p2 p3) s = .next (s.enterFault (.outOfBounds p2 .read))) ∧
    (∀ a b : Int, OperandIs s.mem ms.m1 p1 a → OperandIs s.mem ms.m2 p2 b → ¬ s.mem.inBounds p3 →
      exec (.eq ms p1 p2 p3) s = .next (s.enterFault (.outOfBounds p3 .write)))

/-- R150: HALT's word and length, and its effect: RS becomes HALTED, and PC, M, INQ, IC, OUT and FR stay. A word with
opcode 99 and an illegal digit is no HALT: `IllegalWordsFault`. -/
def Obligations.HaltFollowsItsRule : Prop :=
  ∀ (ms : Modes) (s : State),
    encode (.halt ms) = [instructionWord 99 ms] ∧
    exec (.halt ms) s =
      .next { mem := s.mem, pc := s.pc, rs := .halted, fr := s.fr, inq := s.inq, ic := s.ic, out := s.out }

/-! ### Encoding -/

/-- Decoding the words of any instruction, whatever words follow, gives that instruction and those words. -/
def Obligations.DecodeOfEncodeIsIdentity : Prop :=
  ∀ (i : Instr) (rest : List Word), decode (encode i ++ rest) = .ok (i, rest)

/-- The words an instruction was decoded from are its encoding: decoding drops nothing. That the ignored mode digits are
recovered too is the model's choice, DESIGN CHOICE of log entry 11: by R74 several words (1 and 10001) encode the same
instruction, and the model keeps them apart by the digits. -/
def Obligations.EncodeOfDecodeIsIdentity : Prop :=
  ∀ (ws : List Word) (i : Instr) (rest : List Word), decode ws = .ok (i, rest) → encode i ++ rest = ws

/-- The model's layout of words as bits (log entry 7) loses nothing of a well-formed instruction. -/
def Obligations.TableBitsReadBack : Prop :=
  ∀ i : Instr, WellFormed i →
    decodeTableWord (Config.wordBits * (encode i).length) (bitsOfWords (encode i)) = some i

/-- R61: the decoder's fields are the decimal digits of the word, whatever they are. -/
def Obligations.DecoderReadsDecimalDigits : Prop :=
  ∀ opcode d1 d2 d3 x : Nat, opcode < 100 → d1 < 10 → d2 < 10 → d3 < 10 →
    let d := decodeWord ((opcode + 100 * d1 + 1000 * d2 + 10000 * d3 + 100000 * x : Nat) : Int)
    d.neg = false ∧ d.opcode = opcode ∧ d.m1 = d1 ∧ d.m2 = d2 ∧ d.m3 = d3 ∧ d.excess = x

/-- A word selects an operation exactly when it is not negative, its opcode is the operation's, its mode digits are 0
or 1 and it is below 100000 (R73, R77); the modes are its digits. -/
def Obligations.LegalWordsSelectTheirOperation : Prop :=
  ∀ (w : Int) (op : Opcode) (ms : Modes),
    checkHead (decodeWord w) = .ok (op, ms) ↔ LegalModes w ∧ w = instructionWord (opcodeValue op) ms

/-- R67 to R70: an illegal word faults, UnknownOpcodeFault first, then IllegalModeFault, before any parameter word is
read; the fault of a negative word records no opcode. Every other word selects an operation. -/
def Obligations.IllegalWordsFault : Prop :=
  ∀ (s : State) (w : Int), s.rs = .running → s.mem.read s.pc = some w →
    (w < 0 → step s = .next (s.enterFault .unknownOpcode) ∧ (faultRecord s .unknownOpcode).opcode = none) ∧
    (0 ≤ w → ¬ LegalOpcode w → step s = .next (s.enterFault .unknownOpcode)) ∧
    (0 ≤ w → LegalOpcode w → ¬ LegalModes w → step s = .next (s.enterFault .illegalMode)) ∧
    (0 ≤ w → LegalOpcode w → LegalModes w → ∃ op ms, checkHead (decodeWord w) = .ok (op, ms))

/-- R79: the spec's worked decoding examples, with parameter words after them. -/
def Obligations.SpecExamplesDecode : Prop :=
  decode [1002, 4, 3, 4, 33] = .ok (.mul ⟨.position, .immediate, .position⟩ 4 3 4, [33]) ∧
  decode [11108, 5, 6, 7] = .ok (.eq ⟨.immediate, .immediate, .immediate⟩ 5 6 7, []) ∧
  decode [104, -5, 99] = .ok (.out ⟨.immediate, .position, .position⟩ (-5), [99]) ∧
  decode [99] = .ok (.halt ⟨.position, .position, .position⟩, []) ∧
  decode [1105, 1, 4, 0, 99] = .ok (.jt ⟨.immediate, .immediate, .position⟩ 1 4, [0, 99])

/-- The decoder's `len`, which the opcode alone decides, is the number of words the instruction takes (R63, R74). -/
def Obligations.LengthIsTheDecodersLen : Prop :=
  ∀ (w : Int) (rest : List Word) (i : Instr) (after : List Word), decode (w :: rest) = .ok (i, after) →
    (encode i).length = (decodeWord w).len ∧ rest.length + 1 = (decodeWord w).len + after.length

/-- An ignored mode digit has no effect (R71, R72): the instruction with 0 in its place is legal and does the same. -/
def Obligations.IgnoredDigitsHaveNoEffect : Prop :=
  ∀ (i : Instr) (s : State) (rest : List Word),
    decode (assemble i ++ rest) = .ok (withModes i (usedModes i), rest) ∧
    exec (withModes i (usedModes i)) s = exec i s

/-! ### The step -/

/-- A step of a running machine whose words from PC on start with an instruction is that instruction's execution. -/
def Obligations.StepRunsDecodedInstruction : Prop :=
  ∀ (s : State) (i : Instr) (rest : List Word), s.rs = .running →
    decode (s.mem.words.drop s.pc) = .ok (i, rest) → step s = exec i s

/-- Where the words from PC on start no instruction, the step enters the fault R168 puts first. -/
def Obligations.StepFaultsWhereNoInstructionStarts : Prop :=
  ∀ s : State, s.rs = .running →
    (decode (s.mem.words.drop s.pc) = .error .noWord →
      s.mem.len ≤ s.pc ∧ step s = .next (s.enterFault (.outOfBounds s.pc .fetch))) ∧
    (decode (s.mem.words.drop s.pc) = .error .unknownOpcode → step s = .next (s.enterFault .unknownOpcode)) ∧
    (decode (s.mem.words.drop s.pc) = .error .illegalMode → step s = .next (s.enterFault .illegalMode)) ∧
    (∀ k : Nat, decode (s.mem.words.drop s.pc) = .error (.missingParam k) →
      step s = .next (s.enterFault (.outOfBounds ((s.pc : Int) + k) .param)))

/-- R94: the parameter words are fetched in ascending order before any operand is resolved, so an instruction that
runs past the end of memory faults at the first address past it, N; HALT, of one word, never does. -/
def Obligations.ParameterPastTheEndFaults : Prop :=
  ∀ (s : State) (w : Int) (op : Opcode) (ms : Modes), s.rs = .running → s.mem.read s.pc = some w →
    checkHead (decodeWord w) = .ok (op, ms) →
    (s.mem.len < s.pc + opcodeLength op → step s = .next (s.enterFault (.outOfBounds s.mem.len .param))) ∧
    (s.pc + opcodeLength op ≤ s.mem.len → ∃ i, i.op = op ∧ i.modes = ms ∧ step s = exec i s)

/-- R92: a step is enabled exactly when RS is RUNNING; in HALTED and in FAULTED the model's step stops by name. -/
def Obligations.StepEnabledExactlyWhenRunning : Prop :=
  ∀ s : State,
    ((∃ t, step s = .next t) ↔ s.rs = .running) ∧
    (s.rs = .halted → step s = .fault .runHalted) ∧
    (s.rs = .faulted → step s = .fault .runFaulted)

/-- RS leaves RUNNING for HALTED exactly at a legal instruction word of opcode 99 (R89, R90, R27), and that step
changes nothing else. -/
def Obligations.OnlyAHaltWordHalts : Prop :=
  ∀ s t : State, step s = .next t →
    (t.rs = .halted ↔ ∃ w, s.mem.read s.pc = some w ∧ 0 ≤ w ∧ w % 100 = 99 ∧ LegalModes w) ∧
    (t.rs = .halted ↔ ∃ w, s.mem.read s.pc = some w ∧ haltReq (decodeWord w) = true) ∧
    (t.rs = .halted → t = { s with rs := .halted })

/-- What every instruction leaves unchanged (R96): every word but its destination's, N, the inputs, IC except by IN,
OUT except for one word appended by OUT, RS except by HALT or a fault, FR except by a fault. -/
def Obligations.FrameOfEveryInstruction : Prop :=
  ∀ (i : Instr) (s t : State), exec i s = .next t →
    (∀ x : Int, destinationOf i ≠ some x → t.mem.read x = s.mem.read x) ∧
    t.mem.len = s.mem.len ∧ t.inq = s.inq ∧
    (t.ic = s.ic ∨ (i.op = .inp ∧ t.ic = s.ic + 1)) ∧
    (t.out = s.out ∨ (i.op = .out ∧ ∃ v, t.out = s.out ++ [v])) ∧
    (t.rs = s.rs ∨ (i.op = .halt ∧ t.rs = .halted) ∨ (t.rs = .faulted ∧ ∃ c, t = s.enterFault c)) ∧
    (t.fr = s.fr ∨ t.rs = .faulted)

/-- R87: an instruction's effect depends on the values of its source parameters and not on their modes. -/
def Obligations.ModesDoNotMatterForEqualOperands : Prop :=
  ∀ (s : State) (ms ms' : Modes) (p1 p1' p2 p2' p3 a b : Int),
    OperandIs s.mem ms.m1 p1 a → OperandIs s.mem ms'.m1 p1' a →
    exec (.out ms p1) s = exec (.out ms' p1') s ∧
    (OperandIs s.mem ms.m2 p2 b → OperandIs s.mem ms'.m2 p2' b →
      exec (.add ms p1 p2 p3) s = exec (.add ms' p1' p2' p3) s ∧
      exec (.mul ms p1 p2 p3) s = exec (.mul ms' p1' p2' p3) s ∧
      exec (.lt ms p1 p2 p3) s = exec (.lt ms' p1' p2' p3) s ∧
      exec (.eq ms p1 p2 p3) s = exec (.eq ms' p1' p2' p3) s ∧
      exec (.jt ms p1 p2) s = exec (.jt ms' p1' p2') s ∧
      exec (.jf ms p1 p2) s = exec (.jf ms' p1' p2') s)

/-- A write is seen by the next fetch, and an instruction's own words are read before its write (R55, R204): after an
ADD, whatever word it wrote, the next step runs what the memory with that word holds four words on. -/
def Obligations.AStoreIsSeenByTheNextFetch : Prop :=
  ∀ (s : State) (ms : Modes) (p1 p2 p3 a b : Int) (rest : List Word) (i : Instr) (rest' : List Word),
    s.rs = .running → decode (s.mem.words.drop s.pc) = .ok (.add ms p1 p2 p3, rest) →
    OperandIs s.mem ms.m1 p1 a → OperandIs s.mem ms.m2 p2 b → s.mem.inBounds p3 → fits (a + b) →
    decode ((s.mem.words.set p3.toNat (a + b)).drop (s.pc + 4)) = .ok (i, rest') →
    ∃ t, step s = .next t ∧ t.pc = s.pc + 4 ∧ t.mem.words = s.mem.words.set p3.toNat (a + b) ∧ step t = exec i t

/-! ### Faults -/

/-- R170: a step that faults changes RS and FR and nothing else, and FR says which fault, at which PC and word, under
a condition that holds of the state before the step (R161 to R165). That InputUnderflowFault is raised with a cursor past
the queue's end too, which no run reaches, is the model's choice (log entry 5). -/
def Obligations.FaultsArePrecise : Prop :=
  ∀ s t : State, step s = .next t → t.rs = .faulted →
    ∃ c, CauseHolds s c ∧
      t = { mem := s.mem, pc := s.pc, rs := .faulted, inq := s.inq, ic := s.ic, out := s.out,
            fr := some { cause := c, pc := s.pc, word := s.mem.read s.pc, opcode := opcodeAtPc s } }

/-- Which faults each instruction's own rule can raise, and at which address: the table of R167 without its PARAM
column (`ParameterPastTheEndFaults`). -/
def Obligations.EachInstructionRaisesOnlyItsFaults : Prop :=
  ∀ (i : Instr) (s t : State), s.rs = .running → exec i s = .next t → t.rs = .faulted →
    ∃ c, t = s.enterFault c ∧ MayRaise i c

/-- The fault codes of R160. -/
def Obligations.FaultCodesAreTheTable : Prop :=
  ∀ (a : Int) (k : Access) (r : Int),
    Cause.code .unknownOpcode = 1 ∧ Cause.code (.outOfBounds a k) = 2 ∧ Cause.code .inputUnderflow = 3 ∧
    Cause.code .illegalMode = 4 ∧ Cause.code (.arithmeticOverflow r) = 5

/-! ### Invariants -/

/-- Every step keeps the invariant of a run: canonical memory, 0 <= PC <= N, 0 <= IC <= |INQ|, FR exactly in FAULTED,
and every word, input and output a Word. -/
def Obligations.StepKeepsInvariant : Prop :=
  ∀ s t : State, Inv s → step s = .next t → Inv t

/-- Every step keeps fault records sound: a record exactly in FAULTED, and one that says what the state shows.
That an underflow's cursor may be past the queue's end, which no run reaches, is the model's choice (log entry 5). -/
def Obligations.StepKeepsRecordsSound : Prop :=
  ∀ s t : State, RecordSound s → step s = .next t → RecordSound t

/-- The reset state satisfies both invariants, with the values R38 gives PC, RS, FR, IC and OUT; that its memory and
its inputs are empty is the model's choice (log entry 1). -/
def Obligations.ResetSatisfiesTheInvariants : Prop :=
  Inv State.reset ∧ RecordSound State.reset ∧ State.reset.pc = 0 ∧ State.reset.rs = .running ∧
  State.reset.fr = none ∧ State.reset.ic = 0 ∧ State.reset.out = []

/-- Every loaded state satisfies both invariants and has at least one word (R8, R196). -/
def Obligations.LoadedStatesSatisfyTheInvariants : Prop :=
  ∀ (text : List Char) (inputs : List Int) (s : State), load text inputs = .ok s →
    Inv s ∧ RecordSound s ∧ 1 ≤ s.mem.len

/-! ### Memory -/

/-- The memory is the sequence of its words: reading is indexing, and out of bounds exactly outside it (R22, R42);
writing replaces one word and keeps the length (R47, R49, R57). -/
def Obligations.MemoryIsASequenceOfWords : Prop :=
  ∀ (m : Memory) (a : Int) (v : Word),
    m.words.length = m.len ∧
    m.read a = (if 0 ≤ a then m.words[a.toNat]? else none) ∧
    (m.inBounds a → (m.write a v).words = m.words.set a.toNat v) ∧
    (¬ m.inBounds a → m.write a v = m)

/-- In the canonical form (log entry 3) equal memories are equal data: two memories of the same words are one. -/
def Obligations.CanonicalMemoriesOfEqualWordsAreEqual : Prop :=
  ∀ m m' : Memory, m.wf = true → m'.wf = true → m.words = m'.words → m = m'

/-! ### Loading and running -/

/-- R38, R192, R193: what `load` builds. -/
def Obligations.LoadBuildsTheInitialState : Prop :=
  ∀ (text : List Char) (inputs : List Int) (s : State), load text inputs = .ok s →
    ∃ image, ProgramText text image ∧ s.mem.words = image ∧ s.mem.len = image.length ∧ s.pc = 0 ∧
      s.rs = .running ∧ s.fr = none ∧ s.inq = inputs ∧ s.ic = 0 ∧ s.out = []

/-- R195, R196: `load` gives a state exactly on a text of the grammar whose values, like the inputs, are all Words, and
the state is the launch of those values and inputs; everything else is a LoadError. -/
def Obligations.LoadAcceptsExactlyTheGrammar : Prop :=
  ∀ (text : List Char) (inputs : List Int) (s : State),
    load text inputs = .ok s ↔
      ∃ image, ProgramText text image ∧ (∀ v ∈ image, fits v) ∧ (∀ v ∈ inputs, fits v) ∧ s = launch image inputs

/-- The bits the host names (log entries 6 and 7), placed where the next fetch takes them, are run by the next step. -/
def Obligations.PlacedTableWordRunsNext : Prop :=
  ∀ (s : State) (nbits w : Nat) (i : Instr), decodeTableWord nbits w = some i →
    step (s.withFetchWord nbits w) = exec i (s.withFetchWord nbits w)

/-- Once a run has ended its result never changes, however long it is watched (R200, R202). -/
def Obligations.AnEndedRunKeepsItsResult : Prop :=
  ∀ (s : State) (n k : Nat) (r : RunResult), execute n s = some r → execute (n + k) s = some r

/-- What `execute` returns (R197, R201, R173): OUT when halted, FR when faulted, nothing while running. -/
def Obligations.ExecuteReturnsOutOrTheFault : Prop :=
  ∀ (s : State) (n : Nat), RecordSound s →
    (∀ o, execute n s = some (.output o) ↔ (runSteps n s).rs = .halted ∧ (runSteps n s).out = o) ∧
    (∀ r, execute n s = some (.fault r) ↔ (runSteps n s).rs = .faulted ∧ (runSteps n s).fr = some r) ∧
    (execute n s = none ↔ (runSteps n s).rs = .running) ∧
    (execute n s = none ↔ (runSteps n s).done = false)

/-- R122, over any number of steps: the INs executed receive the queue's words in order, from the cursor on, and the
cursor counts them. That nothing is received with a cursor past the queue's end, which no run reaches, is the model's
choice (log entry 5). -/
def Obligations.InputsAreReceivedInOrder : Prop :=
  ∀ (s : State) (n : Nat),
    received n s = (s.inq.drop s.ic).take (received n s).length ∧
    (runSteps n s).ic = s.ic + (received n s).length

/-- R123, over any number of steps: OUT lists, in execution order, the values of the OUTs executed. -/
def Obligations.OutputsAreListedInOrder : Prop :=
  ∀ (s : State) (n : Nat), (runSteps n s).out = s.out ++ emitted n s

/-- A run need not end (R99): a JT with a condition that is not zero and its own address as target leaves the state as
it is, for ever. -/
def Obligations.AJumpToItselfNeverEnds : Prop :=
  ∀ (s : State) (ms : Modes) (p1 p2 c : Int) (rest : List Word), s.rs = .running →
    decode (s.mem.words.drop s.pc) = .ok (.jt ms p1 p2, rest) →
    OperandIs s.mem ms.m1 p1 c → c ≠ 0 → OperandIs s.mem ms.m2 p2 (s.pc : Int) →
    ∀ n : Nat, runSteps n s = s ∧ execute n s = none
end

