-- ==== Sys2Proof/Laws/Memory.lean ====
section
/-!
SUPPORT. The laws of the memory_array: a read after a write, and the canonical form kept by every operation.
-/

namespace Sys2Proof.Machine

namespace Memory

theorem lookup_erase (cs : List (Nat × Word)) (a x : Nat) :
    lookup (erase cs a) x = if x = a then blank else lookup cs x := by
  induction cs with
  | nil => simp [erase, lookup]
  | cons c cs ih =>
    obtain ⟨b, v⟩ := c
    by_cases hab : a = b
    · subst hab
      by_cases hx : x = a <;> simp_all [erase, lookup]
    · by_cases hxb : x = b
      · subst hxb
        simp [erase, lookup, hab, Ne.symm hab]
      · simp [erase, lookup, hab, hxb, ih]

theorem lookup_place (cs : List (Nat × Word)) (a x : Nat) (v : Word)
    (hn : ∀ c ∈ cs, c.1 ≠ a) : lookup (place cs a v) x = if x = a then v else lookup cs x := by
  induction cs with
  | nil => simp [place, lookup]
  | cons c cs ih =>
    obtain ⟨b, u⟩ := c
    have hb : b ≠ a := hn (b, u) (by simp)
    have ih' := ih fun c hc => hn c (by simp [hc])
    by_cases hlt : a < b
    · simp [place, lookup, hlt]
    · by_cases hxb : x = b
      · subst hxb
        simp [place, lookup, hlt, hb]
      · simp [place, lookup, hlt, hxb, ih']

theorem erase_ne (cs : List (Nat × Word)) (a : Nat) : ∀ c ∈ erase cs a, c.1 ≠ a := by
  induction cs with
  | nil => simp [erase]
  | cons c cs ih =>
    obtain ⟨b, v⟩ := c
    by_cases hab : a = b
    · rw [erase, if_pos hab]
      exact ih
    · rw [erase, if_neg hab, List.forall_mem_cons]
      exact ⟨fun h => hab h.symm, ih⟩

theorem lookup_update (cs : List (Nat × Word)) (a x : Nat) (v : Word) :
    lookup (update cs a v) x = if x = a then v else lookup cs x := by
  unfold update
  split
  · rename_i h
    rw [lookup_erase, h]
  · rw [lookup_place _ _ _ _ (erase_ne cs a), lookup_erase]
    split <;> rfl

@[simp] theorem write_len (m : Memory) (a : Int) (v : Word) : (m.write a v).len = m.len := by
  unfold write; split <;> rfl

theorem read_eq_some (m : Memory) (a : Int) (v : Word) :
    m.read a = some v ↔ m.inBounds a ∧ lookup m.cells a.toNat = v := by
  simp [read]

theorem read_eq_none (m : Memory) (a : Int) : m.read a = none ↔ ¬ m.inBounds a := by
  simp [read]

/-- A read after a write to the same address gives the value written, and every other address reads as before. -/
theorem read_write (m : Memory) (a x : Int) (v : Word) (h : m.inBounds a) :
    (m.write a v).read x = if x = a then some v else m.read x := by
  have hw : m.write a v = { m with cells := update m.cells a.toNat v } := if_pos h
  rw [hw]
  by_cases hx : m.inBounds x
  · have h1 : ({ m with cells := update m.cells a.toNat v } : Memory).read x
        = some (lookup (update m.cells a.toNat v) x.toNat) := if_pos hx
    rw [h1, lookup_update]
    by_cases he : x = a
    · simp [he]
    · have : x.toNat ≠ a.toNat := by have := h.1; have := hx.1; omega
      simp [this, he, read, hx]
  · have hne : x ≠ a := fun e => hx (e ▸ h)
    simp [read, hx, hne]

theorem write_of_not_inBounds (m : Memory) (a : Int) (v : Word) (h : ¬ m.inBounds a) : m.write a v = m := if_neg h

/-! ### The canonical form -/

theorem cellsWf_mono {len lo lo' : Nat} (h : lo' ≤ lo) (cs : List (Nat × Word)) (hw : cellsWf len lo cs = true) :
    cellsWf len lo' cs = true := by
  cases cs with
  | nil => rfl
  | cons c cs =>
    simp only [cellsWf, Bool.and_eq_true, decide_eq_true_eq] at hw ⊢
    exact ⟨⟨⟨by omega, hw.1.1.2⟩, hw.1.2⟩, hw.2⟩

theorem cellsWf_len {len len' lo : Nat} (h : len ≤ len') (cs : List (Nat × Word)) (hw : cellsWf len lo cs = true) :
    cellsWf len' lo cs = true := by
  induction cs generalizing lo with
  | nil => rfl
  | cons c cs ih =>
    simp only [cellsWf, Bool.and_eq_true, decide_eq_true_eq] at hw ⊢
    exact ⟨⟨⟨hw.1.1.1, by omega⟩, hw.1.2⟩, ih hw.2⟩

theorem cellsWf_erase {len lo : Nat} (cs : List (Nat × Word)) (a : Nat) (hw : cellsWf len lo cs = true) :
    cellsWf len lo (erase cs a) = true := by
  induction cs generalizing lo with
  | nil => rfl
  | cons c cs ih =>
    obtain ⟨b, v⟩ := c
    simp only [cellsWf, Bool.and_eq_true, decide_eq_true_eq] at hw
    by_cases hab : a = b
    · simp only [erase, hab, if_true]
      exact hab ▸ ih (cellsWf_mono (by omega) cs hw.2)
    · simp only [erase, hab, if_false, cellsWf, Bool.and_eq_true, decide_eq_true_eq]
      exact ⟨hw.1, ih hw.2⟩

theorem cellsWf_place {len lo a : Nat} {v : Word} (cs : List (Nat × Word)) (hlo : lo ≤ a) (hlen : a < len)
    (hv : v ≠ blank) (hn : ∀ c ∈ cs, c.1 ≠ a) (hw : cellsWf len lo cs = true) :
    cellsWf len lo (place cs a v) = true := by
  induction cs generalizing lo with
  | nil => simp [place, cellsWf, hlo, hlen, hv]
  | cons c cs ih =>
    obtain ⟨b, u⟩ := c
    have hb : b ≠ a := hn (b, u) (by simp)
    simp only [cellsWf, Bool.and_eq_true, decide_eq_true_eq] at hw
    by_cases hlt : a < b
    · simp only [place, hlt, if_true, cellsWf, Bool.and_eq_true, decide_eq_true_eq]
      exact ⟨⟨⟨hlo, hlen⟩, hv⟩, ⟨⟨by omega, hw.1.1.2⟩, hw.1.2⟩, hw.2⟩
    · simp only [place, hlt, if_false, cellsWf, Bool.and_eq_true, decide_eq_true_eq]
      exact ⟨hw.1, ih (by omega) (fun c hc => hn c (by simp [hc])) hw.2⟩

theorem write_wf (m : Memory) (a : Int) (v : Word) (h : m.wf = true) : (m.write a v).wf = true := by
  unfold write
  split
  · rename_i hb
    simp only [wf, update]
    split
    · exact cellsWf_erase _ _ h
    · exact cellsWf_place _ (Nat.zero_le _) (by have := hb.1; have := hb.2; omega) ‹_› (erase_ne _ _)
        (cellsWf_erase _ _ h)
  · exact h

theorem cellsWf_cellsFrom (image : List Word) (lo len : Nat) (h : lo + image.length ≤ len) :
    cellsWf len lo (cellsFrom lo image) = true := by
  induction image generalizing lo with
  | nil => rfl
  | cons v vs ih =>
    simp only [List.length_cons] at h
    have ih' := ih (lo + 1) (by omega)
    unfold cellsFrom
    split
    · exact cellsWf_mono (by omega) _ ih'
    · simp [cellsWf, ih', ‹v ≠ blank›]
      omega

theorem ofWords_wf (image : List Word) : (ofWords image).wf = true :=
  cellsWf_cellsFrom image 0 image.length (by omega)

theorem growTo_wf (m : Memory) (n : Nat) (h : m.wf = true) : (m.growTo n).wf = true :=
  cellsWf_len (Nat.le_max_left m.len n) m.cells h

theorem writeFrom_wf (m : Memory) (a : Nat) (vs : List Word) (h : m.wf = true) : (m.writeFrom a vs).wf = true := by
  induction vs generalizing m a with
  | nil => exact h
  | cons v vs ih => exact ih _ _ (write_wf m a v h)

@[simp] theorem writeFrom_len (m : Memory) (a : Nat) (vs : List Word) : (m.writeFrom a vs).len = m.len := by
  induction vs generalizing m a with
  | nil => rfl
  | cons v vs ih => exact (ih _ _).trans (write_len m a v)

end Memory

theorem reset_mem_wf : State.reset.mem.wf = true := rfl

end Sys2Proof.Machine
end

