-- ==== Sys2Proof/Laws/State.lean ====
section
/-!
SUPPORT. One lemma per field per named update of the state.
-/

namespace Sys2Proof.Machine

@[simp] theorem State.advance_mem (s : State) (n : NextPc) : (s.advance n).mem = s.mem := rfl
@[simp] theorem State.advance_pc (s : State) (n : NextPc) : (s.advance n).pc = nextPc n s.pc := rfl
@[simp] theorem State.advance_rs (s : State) (n : NextPc) : (s.advance n).rs = s.rs := rfl
@[simp] theorem State.advance_fr (s : State) (n : NextPc) : (s.advance n).fr = s.fr := rfl
@[simp] theorem State.advance_inq (s : State) (n : NextPc) : (s.advance n).inq = s.inq := rfl
@[simp] theorem State.advance_ic (s : State) (n : NextPc) : (s.advance n).ic = s.ic := rfl
@[simp] theorem State.advance_out (s : State) (n : NextPc) : (s.advance n).out = s.out := rfl

@[simp] theorem State.store_mem (s : State) (a : Int) (v : Word) : (s.store a v).mem = s.mem.write a v := rfl
@[simp] theorem State.store_pc (s : State) (a : Int) (v : Word) : (s.store a v).pc = s.pc := rfl
@[simp] theorem State.store_rs (s : State) (a : Int) (v : Word) : (s.store a v).rs = s.rs := rfl
@[simp] theorem State.store_fr (s : State) (a : Int) (v : Word) : (s.store a v).fr = s.fr := rfl
@[simp] theorem State.store_inq (s : State) (a : Int) (v : Word) : (s.store a v).inq = s.inq := rfl
@[simp] theorem State.store_ic (s : State) (a : Int) (v : Word) : (s.store a v).ic = s.ic := rfl
@[simp] theorem State.store_out (s : State) (a : Int) (v : Word) : (s.store a v).out = s.out := rfl

@[simp] theorem State.popInput_mem (s : State) : s.popInput.mem = s.mem := rfl
@[simp] theorem State.popInput_pc (s : State) : s.popInput.pc = s.pc := rfl
@[simp] theorem State.popInput_rs (s : State) : s.popInput.rs = s.rs := rfl
@[simp] theorem State.popInput_fr (s : State) : s.popInput.fr = s.fr := rfl
@[simp] theorem State.popInput_inq (s : State) : s.popInput.inq = s.inq := rfl
@[simp] theorem State.popInput_ic (s : State) : s.popInput.ic = s.ic + 1 := rfl
@[simp] theorem State.popInput_out (s : State) : s.popInput.out = s.out := rfl

@[simp] theorem State.emit_mem (s : State) (v : Word) : (s.emit v).mem = s.mem := rfl
@[simp] theorem State.emit_pc (s : State) (v : Word) : (s.emit v).pc = s.pc := rfl
@[simp] theorem State.emit_rs (s : State) (v : Word) : (s.emit v).rs = s.rs := rfl
@[simp] theorem State.emit_fr (s : State) (v : Word) : (s.emit v).fr = s.fr := rfl
@[simp] theorem State.emit_inq (s : State) (v : Word) : (s.emit v).inq = s.inq := rfl
@[simp] theorem State.emit_ic (s : State) (v : Word) : (s.emit v).ic = s.ic := rfl
@[simp] theorem State.emit_out (s : State) (v : Word) : (s.emit v).out = s.out ++ [v] := rfl

@[simp] theorem State.halt_mem (s : State) : s.halt.mem = s.mem := rfl
@[simp] theorem State.halt_pc (s : State) : s.halt.pc = s.pc := rfl
@[simp] theorem State.halt_rs (s : State) : s.halt.rs = .halted := rfl
@[simp] theorem State.halt_fr (s : State) : s.halt.fr = s.fr := rfl
@[simp] theorem State.halt_inq (s : State) : s.halt.inq = s.inq := rfl
@[simp] theorem State.halt_ic (s : State) : s.halt.ic = s.ic := rfl
@[simp] theorem State.halt_out (s : State) : s.halt.out = s.out := rfl

@[simp] theorem State.enterFault_mem (s : State) (c : Cause) : (s.enterFault c).mem = s.mem := rfl
@[simp] theorem State.enterFault_pc (s : State) (c : Cause) : (s.enterFault c).pc = s.pc := rfl
@[simp] theorem State.enterFault_rs (s : State) (c : Cause) : (s.enterFault c).rs = .faulted := rfl
@[simp] theorem State.enterFault_fr (s : State) (c : Cause) : (s.enterFault c).fr = some (faultRecord s c) := rfl
@[simp] theorem State.enterFault_inq (s : State) (c : Cause) : (s.enterFault c).inq = s.inq := rfl
@[simp] theorem State.enterFault_ic (s : State) (c : Cause) : (s.enterFault c).ic = s.ic := rfl
@[simp] theorem State.enterFault_out (s : State) (c : Cause) : (s.enterFault c).out = s.out := rfl

@[simp] theorem nextPc_hold (pc : Nat) : nextPc .hold pc = pc := rfl
@[simp] theorem nextPc_seq (len pc : Nat) : nextPc (.seq len) pc = pc + len := rfl
@[simp] theorem nextPc_load (target pc : Nat) : nextPc (.load target) pc = target := rfl

end Sys2Proof.Machine
end

