-- ==== Sys2Proof/Laws/Ops.lean ====
section
/-!
SUPPORT. One lemma per shared operation: what it gives when it succeeds, and what it raises when it does not. The later
proofs cite these instead of unfolding the operation.
-/

namespace Sys2Proof.Machine

/-! ### The blocks' functions -/

theorem memRead_eq_ok (m : Memory) (a : Int) (k : Access) (v : Word) :
    memRead m a k = .ok v ↔ m.read a = some v := by
  unfold memRead; split <;> simp_all

theorem memRead_eq_error (m : Memory) (a : Int) (k : Access) (c : Cause) :
    memRead m a k = .error c ↔ ¬ m.inBounds a ∧ c = .outOfBounds a k := by
  unfold memRead
  split
  · rename_i v h
    have := (Memory.read_eq_some m a v).1 h
    simp [this.1]
  · rename_i h
    have := (Memory.read_eq_none m a).1 h
    simp [this, eq_comm]

theorem resolve_eq_ok (m : Memory) (raw v : Word) (mode : Mode) :
    resolve m raw mode = .ok v ↔ OperandIs m mode raw v := by
  cases mode
  · exact memRead_eq_ok m raw .read v
  · simp [resolve, OperandIs, eq_comm]

theorem resolve_eq_error (m : Memory) (raw : Word) (mode : Mode) (c : Cause) :
    resolve m raw mode = .error c ↔ OperandBad m mode raw ∧ c = .outOfBounds raw .read := by
  cases mode
  · simpa [resolve, OperandBad] using memRead_eq_error m raw .read c
  · simp [resolve, OperandBad]

/-- A check that gives `x` or raises `e` gives `b` exactly when it passes and `b` is `x`. -/
theorem guard_eq_ok {ε α : Type} {P : Prop} [Decidable P] (x b : α) (e : ε) :
    (if P then .ok x else .error e : Except ε α) = .ok b ↔ P ∧ b = x := by
  by_cases h : P <;> simp [h, eq_comm]

theorem guard_eq_error {ε α : Type} {P : Prop} [Decidable P] (x : α) (e c : ε) :
    (if P then .ok x else .error e : Except ε α) = .error c ↔ ¬ P ∧ c = e := by
  by_cases h : P <;> simp [h, eq_comm]

theorem checkDst_eq_ok (m : Memory) (a : Int) (u : Unit) : checkDst m a = .ok u ↔ m.inBounds a :=
  (guard_eq_ok ..).trans (and_iff_left rfl)

theorem checkDst_eq_error (m : Memory) (a : Int) (c : Cause) :
    checkDst m a = .error c ↔ ¬ m.inBounds a ∧ c = .outOfBounds a .write :=
  guard_eq_error ..

theorem checkTarget_eq_ok (m : Memory) (t : Int) (n : Nat) :
    checkTarget m t = .ok n ↔ m.inBounds t ∧ n = t.toNat :=
  guard_eq_ok ..

theorem checkTarget_eq_error (m : Memory) (t : Int) (c : Cause) :
    checkTarget m t = .error c ↔ ¬ m.inBounds t ∧ c = .outOfBounds t .jump :=
  guard_eq_error ..

theorem checkFits_eq_ok (r v : Int) : checkFits r = .ok v ↔ fits r ∧ v = r :=
  guard_eq_ok ..

theorem checkFits_eq_error (r : Int) (c : Cause) :
    checkFits r = .error c ↔ ¬ fits r ∧ c = .arithmeticOverflow r :=
  guard_eq_error ..

theorem takeInput_eq_ok (s : State) (v : Word) : takeInput s = .ok v ↔ s.frontInput = some v := by
  unfold takeInput; split <;> simp_all

theorem takeInput_eq_error (s : State) (c : Cause) :
    takeInput s = .error c ↔ s.frontInput = none ∧ c = .inputUnderflow := by
  unfold takeInput
  split <;> rename_i h
  · simp [h]
  · simp [h, eq_comm]

/-- A chain of two operations succeeds exactly when both do. -/
theorem bind_eq_ok {ε α β : Type} (x : Except ε α) (f : α → Except ε β) (b : β) :
    (x >>= f) = .ok b ↔ ∃ a, x = .ok a ∧ f a = .ok b := by
  cases x <;> simp [bind, Except.bind]

/-- A chain of two operations raises what the first one raises, or, where that succeeds, what the second one raises. -/
theorem bind_eq_error {ε α β : Type} (x : Except ε α) (f : α → Except ε β) (e : ε) :
    (x >>= f) = .error e ↔ x = .error e ∨ ∃ a, x = .ok a ∧ f a = .error e := by
  cases x <;> simp [bind, Except.bind]

theorem pure_eq_ok {ε α : Type} (a b : α) : (pure a : Except ε α) = .ok b ↔ b = a := by
  simp [pure, Except.pure, eq_comm]

theorem pure_ne_error {ε α : Type} (a : α) (e : ε) : (pure a : Except ε α) ≠ .error e := by
  simp [pure, Except.pure]

theorem resolveTwo_eq_ok (m : Memory) (ms : Modes) (p1 p2 a b : Word) :
    resolveTwo m ms p1 p2 = .ok (a, b) ↔ OperandIs m ms.m1 p1 a ∧ OperandIs m ms.m2 p2 b := by
  simp only [resolveTwo, bind_eq_ok, pure_eq_ok, resolve_eq_ok, Prod.mk.injEq]
  constructor
  · rintro ⟨a', ha, b', hb, rfl, rfl⟩
    exact ⟨ha, hb⟩
  · rintro ⟨ha, hb⟩
    exact ⟨a, ha, b, hb, rfl, rfl⟩

/-- Both sources out of bounds: p1's address is reported (R112). -/
theorem resolveTwo_eq_error (m : Memory) (ms : Modes) (p1 p2 : Word) (c : Cause) :
    resolveTwo m ms p1 p2 = .error c ↔
      (OperandBad m ms.m1 p1 ∧ c = .outOfBounds p1 .read) ∨
      ((∃ a, OperandIs m ms.m1 p1 a) ∧ OperandBad m ms.m2 p2 ∧ c = .outOfBounds p2 .read) := by
  simp only [resolveTwo, bind_eq_error, pure_ne_error, resolve_eq_error, resolve_eq_ok, and_false, exists_false,
    or_false, exists_and_right]

/-! ### The effects of the instructions -/

theorem arithmetic_eq_ok (f : Int → Int → Int) (ms : Modes) (p1 p2 p3 : Word) (s t : State) :
    arithmetic f ms p1 p2 p3 s = .ok t ↔
      ∃ a b, OperandIs s.mem ms.m1 p1 a ∧ OperandIs s.mem ms.m2 p2 b ∧ s.mem.inBounds p3 ∧ fits (f a b) ∧
        t = (s.store p3 (f a b)).advance (.seq 4) := by
  simp only [arithmetic, bind_eq_ok, pure_eq_ok, Prod.exists, resolveTwo_eq_ok, checkDst_eq_ok, checkFits_eq_ok]
  constructor
  · rintro ⟨a, b, ⟨ha, hb⟩, _, hd, _, ⟨hf, rfl⟩, ht⟩
    exact ⟨a, b, ha, hb, hd, hf, ht⟩
  · rintro ⟨a, b, ha, hb, hd, hf, ht⟩
    exact ⟨a, b, ⟨ha, hb⟩, (), hd, _, ⟨hf, rfl⟩, ht⟩

theorem arithmetic_eq_error (f : Int → Int → Int) (ms : Modes) (p1 p2 p3 : Word) (s : State) (c : Cause) :
    arithmetic f ms p1 p2 p3 s = .error c ↔
      resolveTwo s.mem ms p1 p2 = .error c ∨
      ∃ a b, OperandIs s.mem ms.m1 p1 a ∧ OperandIs s.mem ms.m2 p2 b ∧
        ((¬ s.mem.inBounds p3 ∧ c = .outOfBounds p3 .write) ∨
         (s.mem.inBounds p3 ∧ ¬ fits (f a b) ∧ c = .arithmeticOverflow (f a b))) := by
  simp only [arithmetic, bind_eq_error, pure_ne_error, Prod.exists, resolveTwo_eq_ok, checkDst_eq_ok,
    checkDst_eq_error, checkFits_eq_error, and_false, exists_false, or_false, exists_const, and_assoc]

theorem comparison_eq_ok (rel : Int → Int → Bool) (ms : Modes) (p1 p2 p3 : Word) (s t : State) :
    comparison rel ms p1 p2 p3 s = .ok t ↔
      ∃ a b, OperandIs s.mem ms.m1 p1 a ∧ OperandIs s.mem ms.m2 p2 b ∧ s.mem.inBounds p3 ∧
        t = (s.store p3 (truthWord (rel a b))).advance (.seq 4) := by
  simp only [comparison, bind_eq_ok, pure_eq_ok, Prod.exists, resolveTwo_eq_ok, checkDst_eq_ok]
  constructor
  · rintro ⟨a, b, ⟨ha, hb⟩, _, hd, ht⟩
    exact ⟨a, b, ha, hb, hd, ht⟩
  · rintro ⟨a, b, ha, hb, hd, ht⟩
    exact ⟨a, b, ⟨ha, hb⟩, (), hd, ht⟩

theorem comparison_eq_error (rel : Int → Int → Bool) (ms : Modes) (p1 p2 p3 : Word) (s : State) (c : Cause) :
    comparison rel ms p1 p2 p3 s = .error c ↔
      resolveTwo s.mem ms p1 p2 = .error c ∨
      ∃ a b, OperandIs s.mem ms.m1 p1 a ∧ OperandIs s.mem ms.m2 p2 b ∧
        ¬ s.mem.inBounds p3 ∧ c = .outOfBounds p3 .write := by
  simp only [comparison, bind_eq_error, pure_ne_error, Prod.exists, resolveTwo_eq_ok, checkDst_eq_ok,
    checkDst_eq_error, and_false, exists_false, or_false, and_assoc]

theorem inputEffect_eq_ok (p1 : Word) (s t : State) :
    inputEffect p1 s = .ok t ↔
      ∃ v, s.mem.inBounds p1 ∧ s.frontInput = some v ∧ t = (s.popInput.store p1 v).advance (.seq 2) := by
  simp only [inputEffect, bind_eq_ok, pure_eq_ok, checkDst_eq_ok, takeInput_eq_ok]
  constructor
  · rintro ⟨_, hd, v, hv, ht⟩
    exact ⟨v, hd, hv, ht⟩
  · rintro ⟨v, hd, hv, ht⟩
    exact ⟨(), hd, v, hv, ht⟩

theorem inputEffect_eq_error (p1 : Word) (s : State) (c : Cause) :
    inputEffect p1 s = .error c ↔
      (¬ s.mem.inBounds p1 ∧ c = .outOfBounds p1 .write) ∨
      (s.mem.inBounds p1 ∧ s.frontInput = none ∧ c = .inputUnderflow) := by
  simp only [inputEffect, bind_eq_error, pure_ne_error, checkDst_eq_ok, checkDst_eq_error, takeInput_eq_error,
    and_false, exists_false, or_false, exists_const]

theorem outputEffect_eq_ok (ms : Modes) (p1 : Word) (s t : State) :
    outputEffect ms p1 s = .ok t ↔ ∃ v, OperandIs s.mem ms.m1 p1 v ∧ t = (s.emit v).advance (.seq 2) := by
  simp only [outputEffect, bind_eq_ok, pure_eq_ok, resolve_eq_ok]

theorem outputEffect_eq_error (ms : Modes) (p1 : Word) (s : State) (c : Cause) :
    outputEffect ms p1 s = .error c ↔ OperandBad s.mem ms.m1 p1 ∧ c = .outOfBounds p1 .read := by
  simp only [outputEffect, bind_eq_error, pure_ne_error, resolve_eq_error, and_false, exists_false, or_false]

theorem jump_eq_ok (taken : Word → Bool) (ms : Modes) (p1 p2 : Word) (s t : State) :
    jump taken ms p1 p2 s = .ok t ↔
      ∃ c a, OperandIs s.mem ms.m1 p1 c ∧ OperandIs s.mem ms.m2 p2 a ∧
        ((taken c = true ∧ s.mem.inBounds a ∧ t = s.advance (.load a.toNat)) ∨
         (taken c = false ∧ t = s.advance (.seq 3))) := by
  simp only [jump, bind_eq_ok, Prod.exists, resolveTwo_eq_ok, and_assoc]
  refine exists_congr fun c => exists_congr fun a => and_congr_right fun _ => and_congr_right fun _ => ?_
  cases taken c
  · simp [pure_eq_ok]
  · simp only [if_true, bind_eq_ok, pure_eq_ok, checkTarget_eq_ok, true_and, reduceCtorEq, false_and, or_false]
    constructor
    · rintro ⟨_, ⟨hb, rfl⟩, ht⟩
      exact ⟨hb.1, hb.2, ht⟩
    · rintro ⟨h0, hN, ht⟩
      exact ⟨_, ⟨⟨h0, hN⟩, rfl⟩, ht⟩

theorem jump_eq_error (taken : Word → Bool) (ms : Modes) (p1 p2 : Word) (s : State) (e : Cause) :
    jump taken ms p1 p2 s = .error e ↔
      resolveTwo s.mem ms p1 p2 = .error e ∨
      ∃ c a, OperandIs s.mem ms.m1 p1 c ∧ OperandIs s.mem ms.m2 p2 a ∧
        taken c = true ∧ ¬ s.mem.inBounds a ∧ e = .outOfBounds a .jump := by
  simp only [jump, bind_eq_error, Prod.exists, resolveTwo_eq_ok, and_assoc]
  refine or_congr_right (exists_congr fun c => exists_congr fun a => and_congr_right fun _ => and_congr_right fun _ => ?_)
  cases taken c
  · simp [pure_ne_error]
  · simp only [if_true, bind_eq_error, pure_ne_error, checkTarget_eq_error, and_false, exists_false, or_false, true_and]

theorem finish_ne_fault (s : State) (x : Except Cause State) (f : Fault) : finish s x ≠ .fault f := by
  cases x <;> simp [finish]

theorem finish_ne_refused (s : State) (x : Except Cause State) (r : Refusal) : finish s x ≠ .refused r := by
  cases x <;> simp [finish]

/-- What an instruction's rule leaves: its effect, or the entry of the fault it raised. -/
theorem finish_eq_next (s t : State) (x : Except Cause State) :
    finish s x = .next t ↔ x = .ok t ∨ ∃ c, x = .error c ∧ t = s.enterFault c := by
  cases x <;> simp [finish, eq_comm]

end Sys2Proof.Machine
end

