-- ==== Sys2Proof/Laws/Exec.lean ====
section
/-!
SUPPORT. What one execution and one step can do, said once: the effect an instruction computes, and the shapes its next
state can have.
-/

namespace Sys2Proof.Machine

/-- The effect an instruction's meaning ends with. -/
def effectOf (i : Instr) (s : State) : Except Cause State :=
  match i with
  | .add ms p1 p2 p3 => arithmetic (fun a b => a + b) ms p1 p2 p3 s
  | .mul ms p1 p2 p3 => arithmetic (fun a b => a * b) ms p1 p2 p3 s
  | .inp _ p1 => inputEffect p1 s
  | .out ms p1 => outputEffect ms p1 s
  | .jt ms p1 p2 => jump jumpsIfTrue ms p1 p2 s
  | .jf ms p1 p2 => jump jumpsIfFalse ms p1 p2 s
  | .lt ms p1 p2 p3 => comparison (fun a b => decide (a < b)) ms p1 p2 p3 s
  | .eq ms p1 p2 p3 => comparison (fun a b => decide (a = b)) ms p1 p2 p3 s
  | .halt _ => .ok (s.halt.advance .hold)

theorem exec_eq_finish (i : Instr) (s : State) : exec i s = finish s (effectOf i s) := by
  cases i <;> rfl

/-- The shapes of the state a completed instruction leaves. -/
inductive Completed (s : State) : State → Prop where
  | stored (a : Int) (v : Word) : s.mem.inBounds a → fits v ∨ v = 0 ∨ v = 1 →
      Completed s ((s.store a v).advance (.seq 4))
  | received (a : Int) (v : Word) : s.mem.inBounds a → s.frontInput = some v →
      Completed s ((s.popInput.store a v).advance (.seq 2))
  | emitted (ms : Modes) (raw v : Word) : OperandIs s.mem ms.m1 raw v → Completed s ((s.emit v).advance (.seq 2))
  | jumped (a : Int) : s.mem.inBounds a → Completed s (s.advance (.load a.toNat))
  | passed : Completed s (s.advance (.seq 3))
  | halted : Completed s (s.halt.advance .hold)

theorem effectOf_completed (i : Instr) (s t : State) (h : effectOf i s = .ok t) : Completed s t := by
  have truth : ∀ b : Bool, fits (truthWord b) ∨ truthWord b = 0 ∨ truthWord b = 1 := by
    intro b; cases b <;> simp [truthWord]
  cases i with
  | add ms p1 p2 p3 =>
    obtain ⟨a, b, _, _, hd, hf, rfl⟩ := (arithmetic_eq_ok ..).1 h
    exact .stored _ _ hd (.inl hf)
  | mul ms p1 p2 p3 =>
    obtain ⟨a, b, _, _, hd, hf, rfl⟩ := (arithmetic_eq_ok ..).1 h
    exact .stored _ _ hd (.inl hf)
  | inp ms p1 =>
    obtain ⟨v, hd, hv, rfl⟩ := (inputEffect_eq_ok ..).1 h
    exact .received _ _ hd hv
  | out ms p1 =>
    obtain ⟨v, hv, rfl⟩ := (outputEffect_eq_ok ..).1 h
    exact .emitted ms p1 v hv
  | jt ms p1 p2 =>
    obtain ⟨c, a, _, _, ⟨_, hb, rfl⟩ | ⟨_, rfl⟩⟩ := (jump_eq_ok ..).1 h
    · exact .jumped _ hb
    · exact .passed
  | jf ms p1 p2 =>
    obtain ⟨c, a, _, _, ⟨_, hb, rfl⟩ | ⟨_, rfl⟩⟩ := (jump_eq_ok ..).1 h
    · exact .jumped _ hb
    · exact .passed
  | lt ms p1 p2 p3 =>
    obtain ⟨a, b, _, _, hd, rfl⟩ := (comparison_eq_ok (fun a b => decide (a < b)) ms p1 p2 p3 s t).1 h
    exact .stored _ _ hd (truth _)
  | eq ms p1 p2 p3 =>
    obtain ⟨a, b, _, _, hd, rfl⟩ := (comparison_eq_ok (fun a b => decide (a = b)) ms p1 p2 p3 s t).1 h
    exact .stored _ _ hd (truth _)
  | halt ms =>
    obtain rfl := Except.ok.inj h
    exact .halted

/-- What one step leaves: fault entry from the fetch or from the instruction, or the fetched instruction's effect. -/
theorem step_eq_next (s t : State) (h : step s = .next t) :
    s.rs = .running ∧
      ((∃ c, fetchInstr s.mem s.pc = .error c ∧ t = s.enterFault c) ∨
       ∃ i, fetchInstr s.mem s.pc = .ok i ∧
         (effectOf i s = .ok t ∨ ∃ c, effectOf i s = .error c ∧ t = s.enterFault c)) := by
  unfold step at h
  split at h
  · cases h
  · cases h
  · rename_i hr
    refine ⟨hr, ?_⟩
    split at h
    · rename_i c hc
      exact .inl ⟨c, hc, by cases h; rfl⟩
    · rename_i i hi
      rw [exec_eq_finish, finish_eq_next] at h
      exact .inr ⟨i, hi, h⟩

end Sys2Proof.Machine
end

