-- ==== Sys2Proof/Laws/PerInstr.lean ====
section
/-!
SUPPORT. Statements about every instruction as syntax, one lemma per constructor.
-/

namespace Sys2Proof.Laws.HeadRoundTrip

/-- The engine's checks accept the instruction word the encoder writes, and read back its operation and its three mode
digits (R61, R65, R66). -/
def Statement (i : Instr) : Prop := checkHead (decodeWord (encodeWord i)) = .ok (i.op, i.modes)

/-- Every operation with every three mode digits, from its instruction word. -/
theorem checkHead_word (op : Opcode) (m1 m2 m3 : Mode) :
    checkHead (decodeWord
        ((opcodeValue op + 100 * modeDigit m1 + 1000 * modeDigit m2 + 10000 * modeDigit m3 : Nat) : Int))
      = .ok (op, ⟨m1, m2, m3⟩) := by
  cases op <;> cases m1 <;> cases m2 <;> cases m3 <;> decide

theorem add (ms : Modes) (p1 p2 p3 : Word) : Statement (.add ms p1 p2 p3) :=
  checkHead_word .add ms.m1 ms.m2 ms.m3

theorem mul (ms : Modes) (p1 p2 p3 : Word) : Statement (.mul ms p1 p2 p3) :=
  checkHead_word .mul ms.m1 ms.m2 ms.m3

theorem inp (ms : Modes) (p1 : Word) : Statement (.inp ms p1) :=
  checkHead_word .inp ms.m1 ms.m2 ms.m3

theorem out (ms : Modes) (p1 : Word) : Statement (.out ms p1) :=
  checkHead_word .out ms.m1 ms.m2 ms.m3

theorem jt (ms : Modes) (p1 p2 : Word) : Statement (.jt ms p1 p2) :=
  checkHead_word .jt ms.m1 ms.m2 ms.m3

theorem jf (ms : Modes) (p1 p2 : Word) : Statement (.jf ms p1 p2) :=
  checkHead_word .jf ms.m1 ms.m2 ms.m3

theorem lt (ms : Modes) (p1 p2 p3 : Word) : Statement (.lt ms p1 p2 p3) :=
  checkHead_word .lt ms.m1 ms.m2 ms.m3

theorem eq (ms : Modes) (p1 p2 p3 : Word) : Statement (.eq ms p1 p2 p3) :=
  checkHead_word .eq ms.m1 ms.m2 ms.m3

theorem halt (ms : Modes) : Statement (.halt ms) :=
  checkHead_word .halt ms.m1 ms.m2 ms.m3

end Sys2Proof.Laws.HeadRoundTrip
end

