-- ==== Sys2Proof/Tests/Slice0.lean ====
section
/-!
SUPPORT. The model's own tests. Expected results come from spec/95_test_vectors.md (its vector ids stand in the comments)
and from the words of spec/30_encoding.md, worked by hand. After them, a witness for each statement with hypotheses.
-/

namespace Sys2Proof.Tests

open Sys2Proof Sys2Proof.Machine

/-- The state one step after the launch of a program image. -/
def stepFrom (image inputs : List Word) : Option State :=
  match step (launch image inputs) with
  | .next t => some t
  | .fault _ => none
  | .refused _ => none

/-- A fault record as the vectors write it. -/
structure RecordLine where
  code : Nat
  access : Option Access
  addr : Option Int
  pc : Nat
  word : Option Word
  opcode : Option Nat
  deriving DecidableEq, Repr

/-- The fault record of a state, as the vectors write it. -/
def recordOf (t : Option State) : Option RecordLine :=
  (t.bind fun u => u.fr).map fun r => ⟨r.code, r.access, r.addr, r.pc, r.word, r.opcode⟩

/-- All three mode digits 0. -/
def pos : Modes := ⟨.position, .position, .position⟩

/-- All three mode digits 1. -/
def imm : Modes := ⟨.immediate, .immediate, .immediate⟩

/-! ### WellFormed: an ill-formed term for each parameter and each end of the range -/

theorem test_wellFormed_accepts_the_ends : WellFormed (.jt pos 9223372036854775807 (-9223372036854775808)) := by decide
theorem test_wellFormed_refuses_p1_above : ¬ WellFormed (.out imm 9223372036854775808) := by decide
theorem test_wellFormed_refuses_p2_below : ¬ WellFormed (.jf imm 0 (-9223372036854775809)) := by decide
theorem test_wellFormed_refuses_p3_above : ¬ WellFormed (.add pos 0 0 9223372036854775808) := by decide

/-! ### Decoding: words written out from the patterns of 30_encoding.md -/

/-- `CBA01`, C = 0, B = 1, A = 0. -/
theorem test_decode_add :
    decode [1001, 9, 3, 10] = .ok (.add ⟨.position, .immediate, .position⟩ 9 3 10, []) := rfl
/-- `CBA02`, C = 1, B = 0, A = 1. -/
theorem test_decode_mul :
    decode [10102, 6, 7, 5, 99] = .ok (.mul ⟨.immediate, .position, .immediate⟩ 6 7 5, [99]) := rfl
/-- `--A03` with digit 1 on the destination (R72). -/
theorem test_decode_in : decode [103, 3, 99] = .ok (.inp ⟨.immediate, .position, .position⟩ 3, [99]) := rfl
/-- `--A04`, R71's `10104`. -/
theorem test_decode_out : decode [10104, 7] = .ok (.out ⟨.immediate, .position, .immediate⟩ 7, []) := rfl
/-- `-BA05`, B = 0, A = 1. -/
theorem test_decode_jt : decode [105, 1, 4] = .ok (.jt ⟨.immediate, .position, .position⟩ 1 4, []) := rfl
/-- `-BA06`, B = 1, A = 0. -/
theorem test_decode_jf : decode [1006, 22, 18] = .ok (.jf ⟨.position, .immediate, .position⟩ 22 18, []) := rfl
/-- `CBA07`, C = 1, B = 1, A = 1. -/
theorem test_decode_lt : decode [11107, 1, 2, 5] = .ok (.lt imm 1 2 5, []) := rfl
/-- `CBA08`, every digit 0. -/
theorem test_decode_eq : decode [8, 5, 5, 5] = .ok (.eq pos 5 5 5, []) := rfl
/-- `---99` with ignored digits, R71's `11199`. -/
theorem test_decode_halt : decode [11199, 0] = .ok (.halt imm, [0]) := rfl

/-- The words R67 to R70 reject, and the order of the two checks (2098). -/
theorem test_decode_rejects :
    [0, 9, 98, 100, 1098, 2098, -1, -99, -101].map (fun w => decode [w, 0, 0, 0])
      = List.replicate 9 (.error .unknownOpcode) ∧
    [201, 20004, 299, 99999, 100001, 100099].map (fun w => decode [w, 0, 0, 0])
      = List.replicate 6 (.error .illegalMode) ∧
    decode [] = .error .noWord ∧ decode [1101, 1, 1] = .error (.missingParam 3) := ⟨rfl, rfl, rfl, rfl⟩

/-- R75's assembly examples, and an ignored digit assembled as 0. -/
theorem test_assemble :
    assemble (.add ⟨.position, .immediate, .immediate⟩ 9 3 10) = [1001, 9, 3, 10] ∧
    assemble (.out ⟨.immediate, .position, .position⟩ 7) = [104, 7] ∧
    assemble (.inp imm 5) = [3, 5] ∧ assemble (.jt ⟨.immediate, .position, .immediate⟩ 1 4) = [105, 1, 4] := by decide

/-! ### One step of each instruction -/

/-- A4 and A8. -/
theorem test_add :
    (stepFrom [1, 5, 5, 5, 99, 21] []).map (fun t => (t.mem.words, t.pc)) = some ([1, 5, 5, 5, 99, 42], 4) ∧
    (stepFrom [1101, 9223372036854775807, -9223372036854775808, 5, 99, 0] []).bind (fun t => t.mem.read 5) = some (-1) := by
  decide
/-- A6, A12 and A15. -/
theorem test_add_corners :
    (stepFrom [1101, 9223372036854775807, 1, 5, 99, 0] []).bind (fun t => t.fr.bind FaultRecord.result)
      = some 9223372036854775808 ∧
    recordOf (stepFrom [1, 7, 8, 0, 99] []) = some ⟨2, some .read, some 7, 0, some 1, some 1⟩ ∧
    (stepFrom [1, 0, 3, 3, 99] []).map (fun t => (t.mem.words, t.pc)) = some ([1, 0, 3, 4, 99], 4) := by decide
/-- M2 and M6. -/
theorem test_mul :
    (stepFrom [1102, -3, 7, 5, 99, 0] []).bind (fun t => t.mem.read 5) = some (-21) ∧
    (stepFrom [1102, -9223372036854775808, -1, 5, 99, 0] []).bind (fun t => t.fr.bind FaultRecord.result)
      = some 9223372036854775808 := by decide
/-- I2 and I5. -/
theorem test_in :
    (stepFrom [103, 3, 99, 0] [5]).map (fun t => (t.mem.words, t.pc, t.ic)) = some ([103, 3, 99, 5], 2, 1) ∧
    (stepFrom [3, 0, 99] [-42]).bind (fun t => t.mem.read 0) = some (-42) := by decide
/-- I3, I4 and I9. -/
theorem test_in_faults :
    recordOf (stepFrom [3, 0, 99] []) = some ⟨3, none, none, 0, some 3, some 3⟩ ∧
    recordOf (stepFrom [3, 9, 99] []) = some ⟨2, some .write, some 9, 0, some 3, some 3⟩ ∧
    (stepFrom [3, 9, 99] [1]).map (fun t => t.ic) = some 0 := by decide
/-- O1, O2 and O3. -/
theorem test_out :
    (stepFrom [4, 2, 99] []).map (fun t => (t.out, t.pc)) = some ([99], 2) ∧
    (stepFrom [104, -5, 99] []).map (fun t => t.out) = some [-5] ∧
    recordOf (stepFrom [4, 5, 99] []) = some ⟨2, some .read, some 5, 0, some 4, some 4⟩ := by decide
/-- J3, J2 and J11. -/
theorem test_jt :
    (stepFrom [1105, -1, 4, 0, 99] []).map (fun t => t.pc) = some 4 ∧
    (stepFrom [1105, 0, 4, 99, 0] []).map (fun t => t.pc) = some 3 ∧
    (stepFrom [5, 5, 6, 99, 99, 1, 4] []).map (fun t => t.pc) = some 4 := by decide
/-- J9, J7 and J8: the target is checked only when taken, but resolved always. -/
theorem test_jt_faults :
    recordOf (stepFrom [1105, 1, -1, 99] []) = some ⟨2, some .jump, some (-1), 0, some 1105, some 5⟩ ∧
    (stepFrom [1105, 0, 7, 99] []).map (fun t => (t.pc, t.rs)) = some (3, .running) ∧
    recordOf (stepFrom [105, 0, 7, 99] []) = some ⟨2, some .read, some 7, 0, some 105, some 5⟩ := by decide
/-- J4 and J12. -/
theorem test_jf :
    (stepFrom [1106, 0, 4, 0, 99] []).map (fun t => t.pc) = some 4 ∧
    (stepFrom [1106, -1, 4, 99, 0] []).map (fun t => t.pc) = some 3 := by decide
/-- L4, L3 and L9. -/
theorem test_lt :
    (stepFrom [1107, -9223372036854775808, 9223372036854775807, 5, 99, 7] []).bind (fun t => t.mem.read 5) = some 1 ∧
    (stepFrom [1107, 5, -5, 5, 99, 7] []).bind (fun t => t.mem.read 5) = some 0 ∧
    (stepFrom [7, 5, 5, 5, 99, 4] []).bind (fun t => t.mem.read 5) = some 0 := by decide
/-- L5, L6 and L8. -/
theorem test_eq :
    (stepFrom [1108, -3, -3, 5, 99, 7] []).bind (fun t => t.mem.read 5) = some 1 ∧
    (stepFrom [1108, 3, -3, 5, 99, 7] []).bind (fun t => t.mem.read 5) = some 0 ∧
    recordOf (stepFrom [1108, 1, 1, 9, 99] []) = some ⟨2, some .write, some 9, 0, some 1108, some 8⟩ := by decide
/-- H13 and H1. -/
theorem test_halt :
    (stepFrom [11199] []).map (fun t => (t.rs, t.pc, t.mem.words)) = some (.halted, 0, [11199]) ∧
    (stepFrom [99] []).map (fun t => (t.rs, t.pc, t.out, t.fr)) = some (.halted, 0, [], none) := by decide

/-! ### Faults of the fetch and the decoder -/

/-- A14 and A16's second step. -/
theorem test_fetch_faults :
    recordOf (stepFrom [1101, 1, 1] []) = some ⟨2, some .param, some 3, 0, some 1101, some 1⟩ ∧
    recordOf (match step { launch [2, 1, 1, 0] [] with pc := 4 } with | .next t => some t | .fault _ | .refused _ => none)
      = some ⟨2, some .fetch, some 4, 4, none, none⟩ := by decide
/-- H6, H12, H3 and H17. -/
theorem test_illegal_words :
    recordOf (stepFrom [-1] []) = some ⟨1, none, none, 0, some (-1), none⟩ ∧
    recordOf (stepFrom [2098] []) = some ⟨1, none, none, 0, some 2098, some 98⟩ ∧
    recordOf (stepFrom [299] []) = some ⟨4, none, none, 0, some 299, some 99⟩ ∧
    recordOf (stepFrom [100001, 0, 0, 0, 99] []) = some ⟨4, none, none, 0, some 100001, some 1⟩ := by decide

/-! ### The host's numbering, and the step after it -/

/-- 1002 with its parameters 4, 3 and -1 in the words above it. -/
theorem test_decodeTableWord :
    decodeTableWord 256 (1002 + 4 * 2 ^ 64 + 3 * 2 ^ 128 + (2 ^ 64 - 1) * 2 ^ 192)
      = some (.mul ⟨.position, .immediate, .position⟩ 4 3 (-1)) ∧
    decodeTableWord 16 4 = some (.out pos 0) ∧ decodeTableWord 8 0 = none := by decide
/-- OUT [0] placed at reset puts out its own instruction word. -/
theorem test_withFetchWord :
    (match step (State.reset.withFetchWord 16 4) with | .next t => (t.out, t.pc) | .fault _ | .refused _ => ([], 0))
      = ([4], 2) := by decide

/-! ### The Loader (the table of 95_test_vectors.md) -/

/-- The texts that load. -/
theorem test_load :
    (parseProgram "1,0,0,0,99".toList).toOption = some [1, 0, 0, 0, 99] ∧
    (parseProgram " 1 , 0,0 ,0,99\n".toList).toOption = some [1, 0, 0, 0, 99] ∧
    (parseProgram "-007,99".toList).toOption = some [-7, 99] := by decide
/-- The texts that do not. -/
theorem test_load_errors :
    ["", "1,,99", "1,0,0,0,99,", "+1,99", "1,x,99", "9223372036854775808"].map
        (fun t => (parseProgram t.toList).toOption) = List.replicate 6 none := by decide

/-! ### Witnesses: concrete states and operands that meet the hypotheses of each statement, clause by clause -/

/-- Five words, N = 5, with one input. -/
def box : State := launch [7, 9223372036854775807, -3, 99, 0] [5]

/-- AddFollowsItsRule: the sum WMAX into the last word; p1 = N; p2 = -1; p3 = N; the sum WMAX + 1. -/
theorem witness_add :
    (OperandIs box.mem .position 1 9223372036854775807 ∧ OperandIs box.mem .immediate 0 0 ∧ box.mem.inBounds 4 ∧
      fits (9223372036854775807 + 0)) ∧
    OperandBad box.mem .position 5 ∧
    (OperandIs box.mem .position 0 7 ∧ OperandBad box.mem .position (-1)) ∧
    ¬ box.mem.inBounds 5 ∧ ¬ fits (9223372036854775807 + 1) :=
  ⟨⟨rfl, rfl, by decide, by decide⟩, ⟨rfl, by decide⟩, ⟨rfl, rfl, by decide⟩, by decide, by decide⟩

/-- MulFollowsItsRule: the product WMIN into word 0; p1 = -1; p2 = N; p3 = -1; the product WMIN * -1. -/
theorem witness_mul :
    (OperandIs box.mem .immediate (-9223372036854775808) (-9223372036854775808) ∧ OperandIs box.mem .immediate 1 1 ∧
      box.mem.inBounds 0 ∧ fits (-9223372036854775808 * 1)) ∧
    OperandBad box.mem .position (-1) ∧ (OperandIs box.mem .position 2 (-3) ∧ OperandBad box.mem .position 5) ∧
    ¬ box.mem.inBounds (-1) ∧ ¬ fits (-9223372036854775808 * -1) :=
  ⟨⟨rfl, rfl, by decide, by decide⟩, ⟨rfl, by decide⟩, ⟨rfl, rfl, by decide⟩, by decide, by decide⟩

/-- InFollowsItsRule: the one input; no valid destination; the queue just emptied. InPastTheQueuesEndUnderflows: the
cursor one past the end. -/
theorem witness_in :
    (box.mem.inBounds 4 ∧ box.inq[box.ic]? = some 5) ∧ ¬ box.mem.inBounds 5 ∧
    (box.popInput.mem.inBounds 0 ∧ box.popInput.ic = box.popInput.inq.length) ∧
    (box.popInput.popInput.mem.inBounds 4 ∧ box.popInput.popInput.inq.length < box.popInput.popInput.ic) := by decide

/-- OutFollowsItsRule, and both kinds of operand. -/
theorem witness_out :
    OperandIs box.mem .position 4 0 ∧ OperandIs box.mem .immediate (-1) (-1) ∧ OperandBad box.mem .position 5 :=
  ⟨rfl, rfl, rfl, by decide⟩

/-- JtFollowsItsRule: taken to the last word; not taken, whatever the target; taken to N; p1 = N; p2 = -1. -/
theorem witness_jt :
    (OperandIs box.mem .position 2 (-3) ∧ OperandIs box.mem .immediate 4 4 ∧ (-3 : Int) ≠ 0 ∧ box.mem.inBounds 4) ∧
    (OperandIs box.mem .position 4 0 ∧ OperandIs box.mem .immediate 5 5) ∧ ¬ box.mem.inBounds 5 ∧
    OperandBad box.mem .position 5 ∧ OperandBad box.mem .position (-1) :=
  ⟨⟨rfl, rfl, by decide, by decide⟩, ⟨rfl, rfl⟩, by decide, ⟨rfl, by decide⟩, ⟨rfl, by decide⟩⟩

/-- JfFollowsItsRule: taken to word 0; not taken at -1; taken to -1; p1 = -1; p2 = N. -/
theorem witness_jf :
    (OperandIs box.mem .position 4 0 ∧ OperandIs box.mem .immediate 0 0 ∧ box.mem.inBounds 0) ∧
    (OperandIs box.mem .immediate (-1) (-1) ∧ OperandIs box.mem .position 3 99 ∧ (-1 : Int) ≠ 0) ∧
    ¬ box.mem.inBounds (-1) ∧ OperandBad box.mem .position (-1) ∧ OperandBad box.mem .position 5 :=
  ⟨⟨rfl, rfl, by decide⟩, ⟨rfl, rfl, by decide⟩, by decide, ⟨rfl, by decide⟩, ⟨rfl, by decide⟩⟩

/-- LtFollowsItsRule and EqFollowsItsRule: equal and unequal operands; p1, p2 and p3 just out of bounds. -/
theorem witness_compare :
    (OperandIs box.mem .position 0 7 ∧ OperandIs box.mem .immediate 7 7 ∧ OperandIs box.mem .position 2 (-3) ∧
      box.mem.inBounds 4) ∧
    OperandBad box.mem .position 5 ∧ OperandBad box.mem .position (-1) ∧ ¬ box.mem.inBounds 5 :=
  ⟨⟨rfl, rfl, rfl, by decide⟩, ⟨rfl, by decide⟩, ⟨rfl, by decide⟩, by decide⟩

/-- DecoderReadsDecimalDigits at the highest digits. -/
theorem witness_digits : 99 < 100 ∧ 9 < 10 ∧
    (decodeWord ((99 + 100 * 9 + 1000 * 9 + 10000 * 9 + 100000 * 1 : Nat) : Int)).excess = 1 := by decide

/-- TableBitsReadBack, EncodeOfDecodeIsIdentity and LengthIsTheDecodersLen. -/
theorem witness_words :
    WellFormed (.lt imm (-9223372036854775808) 9223372036854775807 0) ∧
    decode [11107, 1, 2, 5, 6] = .ok (.lt imm 1 2 5, [6]) := ⟨by decide, rfl⟩

/-- LegalWordsSelectTheirOperation, at the highest legal word. -/
theorem witness_legal_word :
    checkHead (decodeWord 11199) = .ok (.halt, imm) ∧ LegalModes 11199 := ⟨rfl, by unfold LegalModes; decide⟩

/-- IllegalWordsFault: -1; 98; 100001; 99999; and a legal word. -/
theorem witness_illegal_words :
    ((launch [-1] []).rs = .running ∧ (launch [-1] []).mem.read 0 = some (-1)) ∧
    ((launch [98] []).mem.read 0 = some 98 ∧ ¬ LegalOpcode 98) ∧
    ((launch [100001] []).mem.read 0 = some 100001 ∧ LegalOpcode 100001 ∧ ¬ LegalModes 100001) ∧
    (LegalOpcode 99999 ∧ ¬ LegalModes 99999) ∧ (LegalOpcode 11199 ∧ LegalModes 11199) := by
  unfold LegalOpcode LegalModes; decide

/-- StepRunsDecodedInstruction, AJumpToItselfNeverEnds: a JT to its own address. -/
theorem witness_step :
    (launch [1105, 1, 0] []).rs = .running ∧
    decode ((launch [1105, 1, 0] []).mem.words.drop 0) = .ok (.jt ⟨.immediate, .immediate, .position⟩ 1 0, []) ∧
    OperandIs (launch [1105, 1, 0] []).mem .immediate 1 1 ∧ (1 : Int) ≠ 0 ∧
    OperandIs (launch [1105, 1, 0] []).mem .immediate 0 0 := ⟨rfl, rfl, rfl, by decide, rfl⟩

/-- StepFaultsWhereNoInstructionStarts, each error. -/
theorem witness_step_faults :
    decode ((launch [99] []).mem.words.drop 1) = .error .noWord ∧
    decode ((launch [98] []).mem.words.drop 0) = .error .unknownOpcode ∧
    decode ((launch [299] []).mem.words.drop 0) = .error .illegalMode ∧
    decode ((launch [1101, 1, 1] []).mem.words.drop 0) = .error (.missingParam 3) := ⟨rfl, rfl, rfl, rfl⟩

/-- ParameterPastTheEndFaults: an ADD one word too long, and one that just fits. -/
theorem witness_parameters :
    ((launch [1101, 1, 1] []).mem.read 0 = some 1101 ∧
      checkHead (decodeWord 1101) = .ok (.add, ⟨.immediate, .immediate, .position⟩) ∧
      (launch [1101, 1, 1] []).mem.len < 0 + opcodeLength .add) ∧
    0 + opcodeLength .add ≤ (launch [1101, 1, 1, 0] []).mem.len := ⟨⟨rfl, rfl, by decide⟩, by decide⟩

/-- StepEnabledExactlyWhenRunning, the three run states. -/
theorem witness_run_states : box.rs = .running ∧ box.halt.rs = .halted ∧ (box.enterFault .illegalMode).rs = .faulted :=
  ⟨rfl, rfl, rfl⟩

/-- OnlyAHaltWordHalts, FrameOfEveryInstruction and the invariants' steps: a step that halts, one that completes, one
that faults. -/
theorem witness_next_states :
    (stepFrom [99] []).map (fun t => t.rs) = some .halted ∧
    (stepFrom [3, 0, 99] [5]).map (fun t => t.rs) = some .running ∧
    (stepFrom [98] []).map (fun t => t.rs) = some .faulted := by decide

/-- FaultsArePrecise and EachInstructionRaisesOnlyItsFaults: an execution that faults. -/
theorem witness_exec_faults :
    (match exec (.jt imm 1 5) box with | .next t => some t.rs | .fault _ | .refused _ => none) = some .faulted := by decide

/-- ModesDoNotMatterForEqualOperands: one value by each mode, twice. -/
theorem witness_modes :
    OperandIs box.mem .position 0 7 ∧ OperandIs box.mem .immediate 7 7 ∧
    OperandIs box.mem .position 2 (-3) ∧ OperandIs box.mem .immediate (-3) (-3) := ⟨rfl, rfl, rfl, rfl⟩

/-- AStoreIsSeenByTheNextFetch: P3 of the vectors, whose ADD writes the OUT that follows it. -/
theorem witness_self_modifying :
    decode ((launch [1101, 100, 4, 4, 0, 77, 99] []).mem.words.drop 0)
      = .ok (.add ⟨.immediate, .immediate, .position⟩ 100 4 4, [0, 77, 99]) ∧
    (launch [1101, 100, 4, 4, 0, 77, 99] []).mem.inBounds 4 ∧ fits (100 + 4) ∧
    decode (((launch [1101, 100, 4, 4, 0, 77, 99] []).mem.words.set 4 104).drop 4)
      = .ok (.out ⟨.immediate, .position, .position⟩ 77, [99]) := ⟨rfl, by decide, by decide, rfl⟩

/-- StepKeepsInvariant and StepKeepsRecordsSound: a running state with a word in memory satisfies both. -/
theorem witness_invariants : Inv (launch [99] [5]) ∧ RecordSound (launch [99] [5]) := by
  refine ⟨⟨rfl, by decide, by decide, by simp [launch], ?_, by decide, by decide⟩, by simp [RecordSound, launch]⟩
  intro a v h
  have h2 : (launch [99] [5]).mem.inBounds a := by
    by_contra hb
    simp only [Memory.read, if_neg hb, reduceCtorEq] at h
  have ha : a = 0 := by
    have h3 : a < 1 := h2.2
    have := h2.1
    omega
  subst ha
  obtain rfl : (99 : Int) = v := Option.some.inj h
  decide

/-- LoadedStatesSatisfyTheInvariants, LoadBuildsTheInitialState and LoadAcceptsExactlyTheGrammar: a text that loads. -/
theorem witness_load : (load "1,-2".toList [3]).toOption = some (launch [1, -2] [3]) := by decide

/-- MemoryIsASequenceOfWords and CanonicalMemoriesOfEqualWordsAreEqual: addresses at both ends and past them, and a
word written back to 0. -/
theorem witness_memory :
    (box.mem.inBounds 0 ∧ box.mem.inBounds 4 ∧ ¬ box.mem.inBounds 5 ∧ ¬ box.mem.inBounds (-1)) ∧
    (box.mem.wf = true ∧ (box.mem.write 4 1).wf = true ∧ (box.mem.write 4 1).write 4 0 = box.mem) := by decide

/-- PlacedTableWordRunsNext. -/
theorem witness_table_word : decodeTableWord 8 99 = some (.halt pos) := by decide

/-- AnEndedRunKeepsItsResult and ExecuteReturnsOutOrTheFault: an output, a fault, and a run that has not ended. -/
theorem witness_execute :
    execute 1 (launch [99] []) = some (.output []) ∧
    (execute 1 (launch [98] [])).isSome = true ∧ execute 0 (launch [99] []) = none := by decide

end Sys2Proof.Tests
end

section
/-!
PROOFS. The round trip of an instruction through its words, and of words through the bit layout of log entry 7.
-/

namespace Sys2Proof

/-! ### The words of an instruction -/

/-- The engine's two checks accept the encoder's instruction word, whatever the instruction (R61, R66, R77). -/
theorem checkHead_encodeWord (i : Instr) : checkHead (decodeWord (encodeWord i)) = .ok (i.op, i.modes) :=
  Laws.HeadRoundTrip.checkHead_word i.op i.modes.m1 i.modes.m2 i.modes.m3

/-- The instruction word is one word, and the rest of the opcode's length are parameters (R63, R74). -/
theorem params_length (i : Instr) : i.params.length = opcodeLength i.op - 1 := by
  cases i <;> rfl

theorem buildInstr_params (i : Instr) (rest : List Word) :
    buildInstr (listParam (i.params ++ rest)) i.modes i.op = .ok i := by
  cases i <;> rfl

/-- The words of an instruction decode to it and leave the words after them. -/
theorem decode_encode_append (i : Instr) (rest : List Word) : decode (encode i ++ rest) = .ok (i, rest) := by
  have hdrop : (i.params ++ rest).drop (opcodeLength i.op - 1) = rest := List.drop_left' (params_length i)
  simp only [encode, List.cons_append, decode, checkHead_encodeWord, Machine.bind_eq_ok, Except.ok.injEq]
  exact ⟨_, rfl, i, buildInstr_params i rest, by rw [hdrop]; rfl⟩

/-- `MAX_PARAMS` bounds every instruction's length (R9, R63). -/
theorem encode_length_le (i : Instr) : (encode i).length ≤ Config.maxParams + 1 := by
  cases i <;> simp [encode, Instr.params, Config.maxParams]

theorem fits_iff (v : Int) : fits v ↔ -2 ^ 63 ≤ v ∧ v < 2 ^ 63 := by
  simp only [fits, wordMin, wordMax, Config.wordBits]
  omega

theorem modeDigit_le_one (m : Mode) : modeDigit m ≤ 1 := by
  cases m <;> decide

theorem opcodeValue_le (op : Opcode) : opcodeValue op ≤ 99 := by
  cases op <;> decide

theorem encodeWord_fits (i : Instr) : fits (encodeWord i) := by
  have hop := opcodeValue_le i.op
  have h1 := modeDigit_le_one i.modes.m1
  have h2 := modeDigit_le_one i.modes.m2
  have h3 := modeDigit_le_one i.modes.m3
  rw [fits_iff, encodeWord]
  omega

/-- Every word of a well-formed instruction is a Word (R64). -/
theorem encode_fits (i : Instr) (h : WellFormed i) : ∀ v ∈ encode i, fits v :=
  List.forall_mem_cons.2 ⟨encodeWord_fits i, h⟩

/-! ### Words as bits -/

theorem bitsOfWord_lt (v : Int) : bitsOfWord v < 2 ^ Config.wordBits := by
  simp only [bitsOfWord, Config.wordBits]
  omega

/-- Two's complement loses nothing of a Word (R7). -/
theorem wordOfBits_bitsOfWord (v : Int) (h : fits v) : wordOfBits (bitsOfWord v) = v := by
  obtain ⟨hmin, hmax⟩ := (fits_iff v).1 h
  have hbits : (bitsOfWord v : Int) = v % 2 ^ 64 := Int.toNat_of_nonneg (by omega)
  rw [wordOfBits, Nat.mod_eq_of_lt (bitsOfWord_lt v), Config.wordBits]
  by_cases hv : 0 ≤ v
  · rw [if_pos (by omega)]
    show (bitsOfWord v : Int) = v
    omega
  · rw [if_neg (by omega)]
    show (bitsOfWord v : Int) - ((2 ^ 64 : Nat) : Int) = v
    omega

/-- Only the low `WORD_BITS` bits are read. -/
theorem wordOfBits_add_mul (b n : Nat) : wordOfBits (b + 2 ^ Config.wordBits * n) = wordOfBits b := by
  simp only [wordOfBits, Nat.add_mul_mod_self_left]

theorem wordsOfBits_zero (count : Nat) : wordsOfBits count 0 = List.replicate count 0 := by
  induction count with
  | zero => rfl
  | succ count ih => rw [wordsOfBits, Nat.zero_div, ih, List.replicate_succ]; rfl

/-- Words laid side by side are read back, and 0 above them. -/
theorem wordsOfBits_bitsOfWords (ws : List Word) (extra : Nat) (h : ∀ v ∈ ws, fits v) :
    wordsOfBits (ws.length + extra) (bitsOfWords ws) = ws ++ List.replicate extra 0 := by
  induction ws with
  | nil =>
    rw [List.length_nil, Nat.zero_add, List.nil_append]
    exact wordsOfBits_zero extra
  | cons w ws ih =>
    obtain ⟨hw, hws⟩ := List.forall_mem_cons.1 h
    have hdiv : (bitsOfWord w + 2 ^ Config.wordBits * bitsOfWords ws) / 2 ^ Config.wordBits = bitsOfWords ws := by
      rw [Nat.add_mul_div_left _ _ (Nat.two_pow_pos _), Nat.div_eq_of_lt (bitsOfWord_lt w), Nat.zero_add]
    rw [List.length_cons, Nat.add_right_comm, wordsOfBits, bitsOfWords, wordOfBits_add_mul,
      wordOfBits_bitsOfWord w hw, hdiv, ih hws, List.cons_append]

theorem bitsOfWords_lt (ws : List Word) : bitsOfWords ws < 2 ^ (Config.wordBits * ws.length) := by
  induction ws with
  | nil => exact Nat.one_pos
  | cons w ws ih =>
    have hw := bitsOfWord_lt w
    calc bitsOfWord w + 2 ^ Config.wordBits * bitsOfWords ws
        < 2 ^ Config.wordBits * (bitsOfWords ws + 1) := by rw [Nat.mul_succ]; omega
      _ ≤ 2 ^ Config.wordBits * 2 ^ (Config.wordBits * ws.length) := Nat.mul_le_mul_left _ ih
      _ = 2 ^ (Config.wordBits * (w :: ws).length) := by
        rw [← Nat.pow_add, List.length_cons, Nat.mul_succ, Nat.add_comm]

/-- The host's numbering gives back at most as many words as the longest instruction has, filled up with 0. -/
theorem tableWords_bitsOfWords (ws : List Word) (hlen : ws.length ≤ Config.maxParams + 1) (h : ∀ v ∈ ws, fits v) :
    tableWords (Config.wordBits * ws.length) (bitsOfWords ws) =
      ws ++ List.replicate (Config.maxParams + 1 - ws.length) 0 := by
  rw [tableWords, Nat.mod_eq_of_lt (bitsOfWords_lt ws), ← wordsOfBits_bitsOfWords ws _ h, Nat.add_sub_cancel' hlen]

/-- Settles O12: the bits give the words back with 0 after them, and decoding ignores what follows an instruction. -/
theorem tableBitsReadBack : Obligations.TableBitsReadBack := by
  intro i hi
  rw [decodeTableWord, tableWords_bitsOfWords _ (encode_length_le i) (encode_fits i hi), decode_encode_append]

end Sys2Proof
end

section
/-!
PROOFS. What a load that succeeds has read, and the invariants of the state it builds.
-/

namespace Sys2Proof.Machine

/-! ### The loaded memory -/

namespace Memory

theorem lookup_cellsFrom_of_lt (image : List Word) {lo a : Nat} (h : a < lo) :
    lookup (cellsFrom lo image) a = blank := by
  induction image generalizing lo with
  | nil => rfl
  | cons v vs ih =>
    rw [cellsFrom]
    split
    · exact ih (by omega)
    · rw [lookup, if_neg (by omega), ih (by omega)]

/-- A word left out because it is `blank` reads as `blank`, so every word of the image reads as itself. -/
theorem lookup_cellsFrom (image : List Word) (lo k : Nat) :
    lookup (cellsFrom lo image) (lo + k) = image.getD k blank := by
  induction image generalizing lo k with
  | nil => rfl
  | cons v vs ih =>
    rw [cellsFrom]
    cases k with
    | zero =>
      split
      · rw [lookup_cellsFrom_of_lt vs (by omega), List.getD_cons_zero, ‹v = blank›]
      · rw [lookup, if_pos (Nat.add_zero lo), List.getD_cons_zero]
    | succ k =>
      have hshift : lo + (k + 1) = lo + 1 + k := by omega
      rw [hshift, List.getD_cons_succ, ← ih (lo + 1) k]
      split
      · rfl
      · rw [lookup, if_neg (by omega)]

@[simp] theorem ofWords_len (image : List Word) : (ofWords image).len = image.length := rfl

/-- A read of a loaded memory gives a word of the image (R192). -/
theorem mem_of_read_ofWords {image : List Word} {a : Int} {v : Word} (h : (ofWords image).read a = some v) :
    v ∈ image := by
  obtain ⟨⟨h0, hlen⟩, hv⟩ := (read_eq_some _ a v).1 h
  rw [ofWords_len] at hlen
  have hk : a.toNat < image.length := by omega
  have hread := lookup_cellsFrom image 0 a.toNat
  rw [Nat.zero_add, List.getD_eq_getElem _ _ hk] at hread
  rw [← hv, ofWords, hread]
  exact List.getElem_mem hk

end Memory

/-! ### The launched state -/

/-- The launch of Words satisfies the invariant of a run. -/
theorem launch_inv (image inputs : List Word) (himage : ∀ v ∈ image, fits v) (hinputs : ∀ v ∈ inputs, fits v) :
    Inv (launch image inputs) where
  memory := Memory.ofWords_wf image
  pcInRange := Nat.zero_le _
  cursor := Nat.zero_le _
  record := by simp [launch]
  words _ v h := himage v (Memory.mem_of_read_ofWords h)
  inputs := hinputs
  outputs := by simp [launch]

/-- A launch has no fault record (R38), so none is unsound. -/
theorem launch_recordSound (image inputs : List Word) : RecordSound (launch image inputs) := by
  simp [RecordSound, launch]

/-! ### What a load has read -/

theorem splitCommas_ne_nil (text : List Char) : splitCommas text ≠ [] := by
  cases text with
  | nil => simp [splitCommas]
  | cons c cs =>
    rw [splitCommas]
    split
    · simp
    · split <;> simp

theorem parseToken_eq_ok (t : List Char) (v : Word) :
    parseToken t = .ok v ↔ parseInteger (trimSpace t) = some v ∧ fits v := by
  unfold parseToken
  split <;> rename_i h
  · simp [h]
  · rw [guard_eq_ok, h, Option.some.injEq]
    constructor
    · rintro ⟨hfits, rfl⟩
      exact ⟨rfl, hfits⟩
    · rintro ⟨rfl, hfits⟩
      exact ⟨hfits, rfl⟩

/-- A list is mapped with success exactly when each element is. -/
theorem mapM_eq_ok {ε α β : Type} (f : α → Except ε β) (as : List α) (bs : List β) :
    as.mapM f = .ok bs ↔ List.Forall₂ (fun a b => f a = .ok b) as bs := by
  induction as generalizing bs with
  | nil => simp [pure_eq_ok]
  | cons a as ih =>
    simp only [List.mapM_cons, bind_eq_ok, pure_eq_ok, ih, List.forall₂_cons_left_iff, exists_and_left]

theorem parseProgram_eq_ok (text : List Char) (image : List Word) :
    parseProgram text = .ok image ↔ List.Forall₂ (fun t v => parseToken t = .ok v) (splitCommas text) image :=
  mapM_eq_ok parseToken (splitCommas text) image

/-- Every word of a program that loads is a Word (R196). -/
theorem parseProgram_fits {text : List Char} {image : List Word} (h : parseProgram text = .ok image) :
    ∀ v ∈ image, fits v := by
  have htokens : List.Forall₂ (fun v t => fits v ∧ parseToken t = .ok v) image (splitCommas text) :=
    ((parseProgram_eq_ok text image).1 h).flip.imp fun v t ht => ⟨((parseToken_eq_ok t v).1 ht).2, ht⟩
  exact ((List.forall₂_and_left ..).1 htokens).1

/-- A program that loads has at least one word, as a text has at least one token (R8, R195). -/
theorem parseProgram_length_pos {text : List Char} {image : List Word} (h : parseProgram text = .ok image) :
    1 ≤ image.length := by
  rw [← ((parseProgram_eq_ok text image).1 h).length_eq]
  exact List.length_pos_of_ne_nil (splitCommas_ne_nil text)

/-- A load succeeds exactly when the text parses and the inputs are Words, and builds the launch of both. -/
theorem load_eq_ok (text : List Char) (inputs : List Int) (s : State) :
    load text inputs = .ok s ↔
      ∃ image, parseProgram text = .ok image ∧ (∀ v ∈ inputs, fits v) ∧ s = launch image inputs := by
  rw [load, bind_eq_ok]
  exact exists_congr fun image => and_congr_right fun _ => guard_eq_ok ..

/-- Settles O33: a load that succeeds is the launch of at least one Word with inputs that are Words. -/
theorem loadedStatesSatisfyTheInvariants : Obligations.LoadedStatesSatisfyTheInvariants := by
  intro text inputs s hload
  obtain ⟨image, hparse, hinputs, rfl⟩ := (load_eq_ok text inputs s).1 hload
  exact ⟨launch_inv image inputs (parseProgram_fits hparse) hinputs, launch_recordSound image inputs,
    parseProgram_length_pos hparse⟩

end Sys2Proof.Machine
end

section
/-!
PROOFS. What a fetch has read: the instruction's operation, its mode digits and its parameter words, all in memory; and
why a fetch that gives no instruction raises its fault.
-/

namespace Sys2Proof.Machine

/-! ### The decoder's checks -/

/-- Each opcode value selects its own operation (R66). -/
theorem opcodeOfNat_eq_some (n : Nat) (op : Opcode) : opcodeOfNat n = some op ↔ n = opcodeValue op := by
  constructor
  · intro h
    unfold opcodeOfNat at h
    split at h <;> cases h <;> rfl
  · rintro rfl
    cases op <;> rfl

/-- A known opcode always selects an operation, so the engine's opcode check fails only by `known` (R66, R82). -/
theorem opcodeOfNat_of_known {w : Int} (h : (decodeWord w).known = true) :
    ∃ op, opcodeOfNat (decodeWord w).opcode = some op := by
  simp only [decodeWord, Bool.and_eq_true, decide_eq_true_eq, List.mem_cons, List.not_mem_nil, or_false] at h
  obtain ⟨_, h | h | h | h | h | h | h | h | h⟩ := h <;> exact ⟨_, congrArg opcodeOfNat h⟩

theorem neg_of_known {w : Int} (h : (decodeWord w).known = true) : (decodeWord w).neg = false := by
  simp only [decodeWord, Bool.and_eq_true, Bool.not_eq_true'] at h
  exact h.1

/-- The operation and the modes the checks give are those of a word that passes both. -/
theorem checkHead_eq_ok {d : Decoded} {op : Opcode} {ms : Modes} (h : checkHead d = .ok (op, ms)) :
    d.known = true ∧ opcodeOfNat d.opcode = some op ∧ d.modesOk = true ∧ ms = decodedModes d := by
  unfold checkHead at h
  split at h
  · rename_i op' hknown hop
    obtain ⟨hmodes, heq⟩ := (guard_eq_ok ..).1 h
    obtain ⟨rfl, rfl⟩ := Prod.mk.inj heq
    exact ⟨hknown, hop, hmodes, rfl⟩
  · cases h

/-- The checks fail by the opcode, or by the digits of a word whose opcode is legal (R67 to R70). -/
theorem checkHead_eq_error {w : Int} {e : DecodeError} (h : checkHead (decodeWord w) = .error e) :
    ((decodeWord w).known = false ∧ e = .unknownOpcode) ∨
    ((decodeWord w).known = true ∧ (decodeWord w).modesOk = false ∧ e = .illegalMode) := by
  unfold checkHead at h
  split at h
  · rename_i hknown _
    obtain ⟨hmodes, rfl⟩ := (guard_eq_error ..).1 h
    exact .inr ⟨hknown, Bool.eq_false_of_not_eq_true hmodes, rfl⟩
  · rename_i hno
    cases hknown : (decodeWord w).known with
    | false => exact .inl ⟨rfl, (Except.error.inj h).symm⟩
    | true =>
      obtain ⟨op, hop⟩ := opcodeOfNat_of_known hknown
      exact absurd hop (hno op hknown)

/-- A fault record of a word the checks accepted holds the opcode of its operation (R28, R66). -/
theorem recordedOpcode_of_checkHead {w : Int} {op : Opcode} {ms : Modes}
    (h : checkHead (decodeWord w) = .ok (op, ms)) : recordedOpcode w = some (opcodeValue op) := by
  obtain ⟨hknown, hop, _, _⟩ := checkHead_eq_ok h
  rw [recordedOpcode, neg_of_known hknown, if_neg Bool.false_ne_true, (opcodeOfNat_eq_some ..).1 hop]

/-! ### The parameter words -/

/-- The instruction built has the operation and the modes asked for, and its parameters are the words obtained, counted
from 1 (R63, R94). -/
theorem buildInstr_eq_ok {ε : Type} {param : Nat → Except ε Word} {ms : Modes} {op : Opcode} {i : Instr}
    (h : buildInstr param ms op = .ok i) :
    i.op = op ∧ i.modes = ms ∧ ∀ k p, i.params[k]? = some p → param (k + 1) = .ok p := by
  cases op <;> simp only [buildInstr, bind_eq_ok, pure_eq_ok] at h
  case add | mul | lt | eq =>
    obtain ⟨p1, h1, p2, h2, p3, h3, rfl⟩ := h
    refine ⟨rfl, rfl, ?_⟩
    rintro (_ | _ | _ | k) p ⟨⟩ <;> assumption
  case jt | jf =>
    obtain ⟨p1, h1, p2, h2, rfl⟩ := h
    refine ⟨rfl, rfl, ?_⟩
    rintro (_ | _ | k) p ⟨⟩ <;> assumption
  case inp | out =>
    obtain ⟨p1, h1, rfl⟩ := h
    refine ⟨rfl, rfl, ?_⟩
    rintro (_ | k) p ⟨⟩
    assumption
  case halt =>
    subst h
    exact ⟨rfl, rfl, fun k p hk => by cases hk⟩

/-- No instruction is built only where a parameter word is not obtained. -/
theorem buildInstr_eq_error {ε : Type} {param : Nat → Except ε Word} {ms : Modes} {op : Opcode} {e : ε}
    (h : buildInstr param ms op = .error e) : ∃ k, param k = .error e := by
  cases op <;> simp only [buildInstr, bind_eq_error, pure_ne_error, and_false, exists_false, or_false] at h
  case add | mul | lt | eq =>
    obtain h | ⟨_, _, h | ⟨_, _, h⟩⟩ := h <;> exact ⟨_, h⟩
  case jt | jf =>
    obtain h | ⟨_, _, h⟩ := h <;> exact ⟨_, h⟩
  case inp | out => exact ⟨_, h⟩

/-! ### The fetch -/

/-- A fetched instruction stands in memory: the word at PC has its operation and modes, and its parameters follow. -/
theorem fetchInstr_eq_ok {m : Memory} {pc : Nat} {i : Instr} (h : fetchInstr m pc = .ok i) :
    (∃ w, m.read pc = some w ∧ checkHead (decodeWord w) = .ok (i.op, i.modes)) ∧
    ∀ k p, i.params[k]? = some p → m.read ((pc : Int) + (k + 1 : Nat)) = some p := by
  unfold fetchInstr at h
  split at h
  · cases h
  · rename_i w hw
    split at h
    · cases h
    · rename_i op ms hhead
      obtain ⟨rfl, rfl, hparams⟩ := buildInstr_eq_ok h
      exact ⟨⟨w, (memRead_eq_ok ..).1 hw, hhead⟩, fun k p hk => (memRead_eq_ok ..).1 (hparams k p hk)⟩

/-- The whole of a fetched instruction lies in memory (R94). -/
theorem fetchInstr_length_le {m : Memory} {pc : Nat} {i : Instr} (h : fetchInstr m pc = .ok i) :
    pc + opcodeLength i.op ≤ m.len := by
  obtain ⟨⟨w, hw, _⟩, hparams⟩ := fetchInstr_eq_ok h
  have hpc : m.inBounds pc := ((Memory.read_eq_some ..).1 hw).1
  have hlen := params_length i
  cases hk : i.params.length with
  | zero => omega
  | succ k =>
    have hlast := hparams k _ (List.getElem?_eq_getElem (by omega))
    have hin : m.inBounds ((pc : Int) + (k + 1 : Nat)) := ((Memory.read_eq_some ..).1 hlast).1
    omega

/-- The parameters of an instruction fetched from a memory of Words are Words. -/
theorem fetchInstr_wellFormed {m : Memory} {pc : Nat} {i : Instr} (h : fetchInstr m pc = .ok i)
    (hwords : ∀ (a : Int) (v : Word), m.read a = some v → fits v) : WellFormed i := by
  obtain ⟨_, hparams⟩ := fetchInstr_eq_ok h
  intro p hp
  obtain ⟨k, hk⟩ := List.mem_iff_getElem?.1 hp
  exact hwords _ p (hparams k p hk)

/-- The opcode a fault record would hold at a fetched instruction is the instruction's own (R28). -/
theorem opcodeAtPc_of_fetchInstr {s : State} {i : Instr} (h : fetchInstr s.mem s.pc = .ok i) :
    opcodeAtPc s = some (opcodeValue i.op) := by
  obtain ⟨⟨w, hw, hhead⟩, _⟩ := fetchInstr_eq_ok h
  rw [opcodeAtPc, hw, Option.bind_some, recordedOpcode_of_checkHead hhead]

end Sys2Proof.Machine
end

section
/-!
PROOFS. Every step keeps the invariant of a run: each change of the state keeps it, so each instruction's effect does.
-/

namespace Sys2Proof.Machine

/-! ### One rule per change of the state -/

theorem Inv.advance {s : State} (h : Inv s) (n : NextPc) (hpc : nextPc n s.pc ≤ s.mem.len) : Inv (s.advance n) :=
  { h with pcInRange := hpc }

theorem Inv.emit {s : State} (h : Inv s) {v : Word} (hv : fits v) : Inv (s.emit v) :=
  { h with outputs := List.forall_mem_append.2 ⟨h.outputs, List.forall_mem_singleton.2 hv⟩ }

theorem Inv.popInput {s : State} (h : Inv s) {v : Word} (hv : s.frontInput = some v) : Inv s.popInput :=
  { h with cursor := (List.getElem?_eq_some_iff.1 hv).1 }

theorem Inv.halt {s : State} (h : Inv s) (hrunning : s.rs = .running) : Inv s.halt :=
  { h with record := h.record.trans (by simp [hrunning]) }

theorem Inv.enterFault {s : State} (h : Inv s) (c : Cause) : Inv (s.enterFault c) :=
  { h with record := iff_of_true rfl rfl }

/-- Any word read after a store is the word stored or one that stood there before. -/
theorem Inv.store {s : State} (h : Inv s) {a : Int} {v : Word} (hin : s.mem.inBounds a) (hv : fits v) :
    Inv (s.store a v) :=
  { h with
    memory := Memory.write_wf s.mem a v h.memory
    pcInRange := h.pcInRange.trans_eq (Memory.write_len s.mem a v).symm
    words := by
      intro x u hx
      rw [State.store_mem, Memory.read_write s.mem a x v hin] at hx
      split at hx
      · exact Option.some.inj hx ▸ hv
      · exact h.words x u hx }

/-- An operand is a parameter or a word of memory. -/
theorem Inv.operand_fits {s : State} (h : Inv s) {mode : Mode} {raw v : Word} (hraw : fits raw)
    (hv : OperandIs s.mem mode raw v) : fits v := by
  cases mode with
  | position => exact h.words raw v hv
  | immediate => exact hv ▸ hraw

theorem truthWord_fits (b : Bool) : fits (truthWord b) := by
  cases b <;> decide

theorem Inv.frontInput_fits {s : State} (h : Inv s) {v : Word} (hv : s.frontInput = some v) : fits v :=
  h.inputs v (List.mem_of_getElem? hv)

/-! ### The effects of the instructions -/

theorem arithmetic_inv {f : Int → Int → Int} {ms : Modes} {p1 p2 p3 : Word} {s t : State} (h : Inv s)
    (hlen : s.pc + 4 ≤ s.mem.len) (ht : arithmetic f ms p1 p2 p3 s = .ok t) : Inv t := by
  obtain ⟨a, b, _, _, hin, hfits, rfl⟩ := (arithmetic_eq_ok ..).1 ht
  exact (h.store hin hfits).advance _ (by simpa using hlen)

theorem comparison_inv {rel : Int → Int → Bool} {ms : Modes} {p1 p2 p3 : Word} {s t : State} (h : Inv s)
    (hlen : s.pc + 4 ≤ s.mem.len) (ht : comparison rel ms p1 p2 p3 s = .ok t) : Inv t := by
  obtain ⟨a, b, _, _, hin, rfl⟩ := (comparison_eq_ok ..).1 ht
  exact (h.store hin (truthWord_fits _)).advance _ (by simpa using hlen)

theorem inputEffect_inv {p1 : Word} {s t : State} (h : Inv s) (hlen : s.pc + 2 ≤ s.mem.len)
    (ht : inputEffect p1 s = .ok t) : Inv t := by
  obtain ⟨v, hin, hv, rfl⟩ := (inputEffect_eq_ok ..).1 ht
  exact ((h.popInput hv).store hin (h.frontInput_fits hv)).advance _ (by simpa using hlen)

theorem outputEffect_inv {ms : Modes} {p1 : Word} {s t : State} (h : Inv s) (hlen : s.pc + 2 ≤ s.mem.len)
    (hp1 : fits p1) (ht : outputEffect ms p1 s = .ok t) : Inv t := by
  obtain ⟨v, hv, rfl⟩ := (outputEffect_eq_ok ..).1 ht
  exact (h.emit (h.operand_fits hp1 hv)).advance _ hlen

/-- A taken jump goes to a word of memory, and one not taken passes an instruction that lies in memory. -/
theorem jump_inv {taken : Word → Bool} {ms : Modes} {p1 p2 : Word} {s t : State} (h : Inv s)
    (hlen : s.pc + 3 ≤ s.mem.len) (ht : jump taken ms p1 p2 s = .ok t) : Inv t := by
  obtain ⟨c, a, _, _, ⟨_, hin, rfl⟩ | ⟨_, rfl⟩⟩ := (jump_eq_ok ..).1 ht
  · exact h.advance _ (by simp only [nextPc_load]; omega)
  · exact h.advance _ hlen

/-- The effect of an instruction of Words that lies in memory keeps the invariant. -/
theorem effectOf_inv {i : Instr} {s t : State} (h : Inv s) (hrunning : s.rs = .running)
    (hlen : s.pc + opcodeLength i.op ≤ s.mem.len) (hwf : WellFormed i) (ht : effectOf i s = .ok t) : Inv t := by
  cases i with
  | add | mul => exact arithmetic_inv h hlen ht
  | lt => exact comparison_inv (rel := fun a b => decide (a < b)) h hlen ht
  | eq => exact comparison_inv (rel := fun a b => decide (a = b)) h hlen ht
  | inp => exact inputEffect_inv h hlen ht
  | out ms p1 => exact outputEffect_inv h hlen (hwf p1 (List.mem_singleton_self p1)) ht
  | jt | jf => exact jump_inv h hlen ht
  | halt =>
    obtain rfl := Except.ok.inj ht
    exact (h.halt hrunning).advance _ h.pcInRange

/-- Settles O30: a step enters a fault or has the effect of an instruction that lies in memory, and both keep the
invariant. -/
theorem stepKeepsInvariant : Obligations.StepKeepsInvariant := by
  intro s t h hstep
  obtain ⟨hrunning, ⟨c, _, rfl⟩ | ⟨i, hfetch, heffect | ⟨c, _, rfl⟩⟩⟩ := step_eq_next s t hstep
  · exact h.enterFault c
  · exact effectOf_inv h hrunning (fetchInstr_length_le hfetch) (fetchInstr_wellFormed hfetch h.words) heffect
  · exact h.enterFault c

end Sys2Proof.Machine
end

section
/-!
PROOFS. Every step keeps fault records sound: a cause is raised, by the fetch or by an instruction's effect, only where
its condition holds, and a completed instruction leaves no record.
-/

namespace Sys2Proof.Machine

/-! ### The causes a fetch raises -/

/-- Past the fetch, an access out of bounds is all that its cause says. -/
theorem causeHolds_outOfBounds {s : State} {w : Word} {a : Int} {k : Access} (hw : s.mem.read s.pc = some w)
    (hout : ¬ s.mem.inBounds a) (hk : k ≠ .fetch) : CauseHolds s (.outOfBounds a k) :=
  ⟨hout, iff_of_false hk (by simp [hw]), fun h => absurd h hk⟩

/-- The fetch of R93 raises each of its faults only under the condition of that fault (R161, R162, R164). -/
theorem fetchInstr_causeHolds {s : State} {c : Cause} (h : fetchInstr s.mem s.pc = .error c) : CauseHolds s c := by
  unfold fetchInstr at h
  split at h
  · rename_i c' hread
    obtain rfl := Except.error.inj h
    obtain ⟨hout, rfl⟩ := (memRead_eq_error ..).1 hread
    exact ⟨hout, iff_of_true rfl ((Memory.read_eq_none ..).2 hout), fun _ => rfl⟩
  · rename_i w hread
    have hw := (memRead_eq_ok ..).1 hread
    split at h
    · rename_i e hhead
      obtain rfl := Except.error.inj h
      obtain ⟨hknown, rfl⟩ | ⟨hknown, hmodes, rfl⟩ := checkHead_eq_error hhead
      · exact ⟨w, hw, hknown⟩
      · exact ⟨w, hw, hknown, hmodes⟩
    · obtain ⟨k, hparam⟩ := buildInstr_eq_error h
      obtain ⟨hout, rfl⟩ := (memRead_eq_error ..).1 hparam
      exact causeHolds_outOfBounds hw hout (by decide)

/-! ### The causes an instruction raises -/

section Effects

variable {s : State} {c : Cause} {w : Word} (hw : s.mem.read s.pc = some w)

include hw

theorem resolveTwo_causeHolds {ms : Modes} {p1 p2 : Word} (h : resolveTwo s.mem ms p1 p2 = .error c) :
    CauseHolds s c := by
  obtain ⟨hbad, rfl⟩ | ⟨_, hbad, rfl⟩ := (resolveTwo_eq_error ..).1 h <;>
  exact causeHolds_outOfBounds hw hbad.2 (by decide)

theorem arithmetic_causeHolds {f : Int → Int → Int} {ms : Modes} {p1 p2 p3 : Word}
    (hop : opcodeAtPc s = some 1 ∨ opcodeAtPc s = some 2) (h : arithmetic f ms p1 p2 p3 s = .error c) :
    CauseHolds s c := by
  obtain h | ⟨a, b, _, _, ⟨hout, rfl⟩ | ⟨_, hfits, rfl⟩⟩ := (arithmetic_eq_error ..).1 h
  · exact resolveTwo_causeHolds hw h
  · exact causeHolds_outOfBounds hw hout (by decide)
  · exact ⟨hfits, hop⟩

theorem comparison_causeHolds {rel : Int → Int → Bool} {ms : Modes} {p1 p2 p3 : Word}
    (h : comparison rel ms p1 p2 p3 s = .error c) : CauseHolds s c := by
  obtain h | ⟨a, b, _, _, hout, rfl⟩ := (comparison_eq_error ..).1 h
  · exact resolveTwo_causeHolds hw h
  · exact causeHolds_outOfBounds hw hout (by decide)

theorem inputEffect_causeHolds {p1 : Word} (hop : opcodeAtPc s = some 3) (h : inputEffect p1 s = .error c) :
    CauseHolds s c := by
  obtain ⟨hout, rfl⟩ | ⟨_, hempty, rfl⟩ := (inputEffect_eq_error ..).1 h
  · exact causeHolds_outOfBounds hw hout (by decide)
  · exact ⟨List.getElem?_eq_none_iff.1 hempty, hop⟩

theorem outputEffect_causeHolds {ms : Modes} {p1 : Word} (h : outputEffect ms p1 s = .error c) : CauseHolds s c := by
  obtain ⟨hbad, rfl⟩ := (outputEffect_eq_error ..).1 h
  exact causeHolds_outOfBounds hw hbad.2 (by decide)

theorem jump_causeHolds {taken : Word → Bool} {ms : Modes} {p1 p2 : Word} (h : jump taken ms p1 p2 s = .error c) :
    CauseHolds s c := by
  obtain h | ⟨_, a, _, _, _, hout, rfl⟩ := (jump_eq_error ..).1 h
  · exact resolveTwo_causeHolds hw h
  · exact causeHolds_outOfBounds hw hout (by decide)

end Effects

/-- A fetched instruction raises a fault only under the condition of that fault (R162, R163, R165). -/
theorem effectOf_causeHolds {i : Instr} {s : State} {c : Cause} (hfetch : fetchInstr s.mem s.pc = .ok i)
    (h : effectOf i s = .error c) : CauseHolds s c := by
  have hop := opcodeAtPc_of_fetchInstr hfetch
  obtain ⟨⟨w, hw, _⟩, _⟩ := fetchInstr_eq_ok hfetch
  cases i with
  | add => exact arithmetic_causeHolds hw (.inl hop) h
  | mul => exact arithmetic_causeHolds hw (.inr hop) h
  | inp => exact inputEffect_causeHolds hw hop h
  | out => exact outputEffect_causeHolds hw h
  | jt | jf => exact jump_causeHolds hw h
  | lt => exact comparison_causeHolds (rel := fun a b => decide (a < b)) hw h
  | eq => exact comparison_causeHolds (rel := fun a b => decide (a = b)) hw h
  | halt => cases h

/-! ### Records after a step -/

/-- Fault entry records the PC, the word and the opcode it leaves in place, so the record says what the state shows
whenever the cause holds (R28, R170). -/
theorem recordSound_enterFault {s : State} {c : Cause} (h : CauseHolds s c) : RecordSound (s.enterFault c) := by
  refine ⟨iff_of_true rfl rfl, fun r hr => ?_⟩
  obtain rfl := Option.some.inj hr
  exact ⟨rfl, rfl, rfl, h⟩

theorem recordSound_of_no_record {s : State} (hfr : s.fr = none) (hrs : s.rs ≠ .faulted) : RecordSound s :=
  ⟨iff_of_false (by simp [hfr]) hrs, fun r hr => by simp [hfr] at hr⟩

/-- A completed instruction keeps `FR` and does not fault (R170). -/
theorem Completed.keeps_record {s t : State} (h : Completed s t) (hrs : s.rs ≠ .faulted) :
    t.fr = s.fr ∧ t.rs ≠ .faulted := by
  cases h with
  | stored | received | emitted | jumped | passed => exact ⟨rfl, hrs⟩
  | halted => exact ⟨rfl, RunState.noConfusion⟩

/-- Settles O31: a step enters a fault whose condition holds, or completes an instruction from a state without a
record. -/
theorem stepKeepsRecordsSound : Obligations.StepKeepsRecordsSound := by
  rintro s t ⟨hrecord, _⟩ hstep
  obtain ⟨hrunning, ⟨c, hfetch, rfl⟩ | ⟨i, hfetch, heffect | ⟨c, heffect, rfl⟩⟩⟩ := step_eq_next s t hstep
  · exact recordSound_enterFault (fetchInstr_causeHolds hfetch)
  · have hrs : s.rs ≠ .faulted := by simp [hrunning]
    have hfr : s.fr = none := by simpa [hrs] using hrecord
    obtain ⟨hkept, hrs'⟩ := (effectOf_completed i s t heffect).keeps_record hrs
    exact recordSound_of_no_record (hkept.trans hfr) hrs'
  · exact recordSound_enterFault (effectOf_causeHolds hfetch heffect)

end Sys2Proof.Machine
end

section
/-!
PROOFS. The memory as the sequence of its words (R22), and the state a load builds.
-/

namespace Sys2Proof.Machine

/-! ### Memory as a sequence of words -/

namespace Memory

@[simp] theorem words_length (m : Memory) : m.words.length = m.len := by
  simp [words]

@[simp] theorem getElem_words (m : Memory) {k : Nat} (h : k < m.words.length) : m.words[k] = lookup m.cells k := by
  simp [words]

/-- Reading is indexing (R22, R42, R57). -/
theorem read_eq_getElem?_words (m : Memory) (a : Int) :
    m.read a = if 0 ≤ a then m.words[a.toNat]? else none := by
  by_cases hin : m.inBounds a
  · have hk : a.toNat < m.words.length := by rw [words_length]; omega
    rw [read, if_pos hin, if_pos hin.1, List.getElem?_eq_getElem hk, getElem_words]
  · rw [read, if_neg hin]
    split
    · rw [List.getElem?_eq_none (by rw [words_length]; omega)]
    · rfl

/-- Writing at a valid address replaces one word (R47, R57). -/
theorem words_write (m : Memory) {a : Int} (v : Word) (h : m.inBounds a) :
    (m.write a v).words = m.words.set a.toNat v := by
  refine List.ext_getElem (by simp) fun k _ _ => ?_
  rw [getElem_words, write, if_pos h, lookup_update, List.getElem_set, getElem_words]
  exact if_congr eq_comm rfl rfl

/-- Loading an image makes its words the memory's (R192). -/
@[simp] theorem words_ofWords (image : List Word) : (ofWords image).words = image := by
  refine List.ext_getElem (by simp) fun k _ hk => ?_
  have hread := lookup_cellsFrom image 0 k
  rw [Nat.zero_add, List.getD_eq_getElem _ _ hk] at hread
  rw [getElem_words, ofWords, hread]

end Memory

/-- Settles O34: reading is indexing, and a write replaces one word or nothing. -/
theorem memoryIsASequenceOfWords : Obligations.MemoryIsASequenceOfWords :=
  fun m a v => ⟨m.words_length, m.read_eq_getElem?_words a, m.words_write v, m.write_of_not_inBounds a v⟩

end Sys2Proof.Machine
end

section
/-!
PROOFS. What the Loader reads is a program text of the grammar with the values of its tokens (R195), and the state it
builds from them.
-/

namespace Sys2Proof.Machine

/-! ### Tokens -/

theorem parseDigits_eq_some (ds : List Char) (n : Nat) :
    parseDigits ds = some n ↔ ds ≠ [] ∧ (∀ c ∈ ds, isDecimalDigit c = true) ∧ n = digitsValue 0 ds := by
  rw [parseDigits, Option.ite_none_right_eq_some]
  simp [and_assoc, eq_comm (a := n)]

/-- What the integer parser accepts is an integer of the grammar, with its value. -/
theorem integerText_of_parseInteger {cs : List Char} {v : Int} (h : parseInteger cs = some v) : IntegerText cs v := by
  unfold parseInteger at h
  split at h <;>
    simp only [Option.map_eq_some_iff, bind, Option.bind_eq_some_iff, pure, Option.some.injEq, parseDigits_eq_some] at h <;>
    obtain ⟨_, ⟨n, ⟨hne, hdigits, rfl⟩, rfl⟩, rfl⟩ := h
  · exact ⟨_, hne, hdigits, .inr ⟨rfl, rfl⟩⟩
  · exact ⟨_, hne, hdigits, .inl ⟨rfl, rfl⟩⟩

/-- Trimming removes whitespace in front and behind, and nothing else. -/
theorem trimSpace_surrounded (cs : List Char) :
    ∃ l r : List Char, (∀ c ∈ l, isSpace c = true) ∧ (∀ c ∈ r, isSpace c = true) ∧ cs = l ++ trimSpace cs ++ r := by
  refine ⟨cs.takeWhile isSpace, (cs.dropWhile isSpace).rtakeWhile isSpace,
    fun c => List.mem_takeWhile_imp, fun c => List.mem_rtakeWhile_imp, ?_⟩
  have hbehind : trimSpace cs ++ (cs.dropWhile isSpace).rtakeWhile isSpace = cs.dropWhile isSpace :=
    List.rdropWhile_append_rtakeWhile
  rw [List.append_assoc, hbehind, List.takeWhile_append_dropWhile]

theorem tokenText_of_parseToken {t : List Char} {v : Word} (h : parseToken t = .ok v) : TokenText t v := by
  obtain ⟨hinteger, _⟩ := (parseToken_eq_ok t v).1 h
  obtain ⟨l, r, hl, hr, ht⟩ := trimSpace_surrounded t
  exact ⟨l, trimSpace t, r, hl, hr, ht, integerText_of_parseInteger hinteger⟩

/-! ### Texts -/

/-- The tokens are the library's split of the text at its commas. -/
theorem splitCommas_eq_splitOn (text : List Char) : splitCommas text = text.splitOn ',' := by
  induction text with
  | nil => rfl
  | cons c cs ih =>
    rw [splitCommas, List.splitOn_cons_eq_if_modifyHead, ← ih]
    cases hcs : splitCommas cs with
    | nil => exact absurd hcs (splitCommas_ne_nil cs)
    | cons t ts => simp only [beq_iff_eq, List.modifyHead_cons]

/-- Tokens with commas between them are a program text with the tokens' values. -/
theorem programText_intercalate {ts : List (List Char)} {vs : List Int} (h : List.Forall₂ TokenText ts vs)
    (hne : ts ≠ []) : ProgramText ([','].intercalate ts) vs := by
  induction h with
  | nil => exact absurd rfl hne
  | @cons t v ts vs ht hts ih =>
    cases ts with
    | nil =>
      cases hts
      simpa using ProgramText.single ht
    | cons t' ts =>
      simpa using ProgramText.more ht (ih (List.cons_ne_nil t' ts))

/-- A text that loads is one of the grammar, with the values loaded (R195). -/
theorem programText_of_parseProgram {text : List Char} {image : List Word} (h : parseProgram text = .ok image) :
    ProgramText text image := by
  have htokens : List.Forall₂ TokenText (splitCommas text) image :=
    ((parseProgram_eq_ok text image).1 h).imp fun _ _ => tokenText_of_parseToken
  have htext := programText_intercalate htokens (splitCommas_ne_nil text)
  rwa [splitCommas_eq_splitOn, List.intercalate_splitOn] at htext

/-- Settles O36: the values read are those of the text's tokens, and the launch puts them in memory. -/
theorem loadBuildsTheInitialState : Obligations.LoadBuildsTheInitialState := by
  intro text inputs s hload
  obtain ⟨image, hparse, _, rfl⟩ := (load_eq_ok text inputs s).1 hload
  exact ⟨image, programText_of_parseProgram hparse, Memory.words_ofWords image, rfl, rfl, rfl, rfl, rfl, rfl, rfl⟩

/-- Settles O32: the reset state is the launch of no words with no inputs. -/
theorem resetSatisfiesTheInvariants : Obligations.ResetSatisfiesTheInvariants :=
  ⟨launch_inv [] [] (by simp) (by simp), launch_recordSound [] [], rfl, rfl, rfl, rfl, rfl⟩

end Sys2Proof.Machine
end

section
/-!
PROOFS. A memory in canonical form is the one built from its words (R45, log entry 3).
-/

namespace Sys2Proof.Machine

/-! ### Canonical memories -/

namespace Memory

theorem cellsWf_cons {len lo a : Nat} {v : Word} {cs : List (Nat × Word)} :
    cellsWf len lo ((a, v) :: cs) = true ↔ lo ≤ a ∧ a < len ∧ v ≠ blank ∧ cellsWf len (a + 1) cs = true := by
  simp only [cellsWf, Bool.and_eq_true, decide_eq_true_eq, and_assoc]

/-- No cell of a canonical form lies below its bound. -/
theorem lookup_of_cellsWf_of_lt {len lo a : Nat} {cs : List (Nat × Word)} (hw : cellsWf len lo cs = true) (h : a < lo) :
    lookup cs a = blank := by
  induction cs generalizing lo with
  | nil => rfl
  | cons c cs ih =>
    obtain ⟨hlo, _, _, hcs⟩ := cellsWf_cons.1 hw
    rw [lookup, if_neg (by omega), ih hcs (by omega)]

/-- The lowest address is either unlisted and blank, or that of the first cell. -/
theorem cellsWf_cases {len lo : Nat} {cs : List (Nat × Word)} (hw : cellsWf len lo cs = true) :
    (lookup cs lo = blank ∧ cellsWf len (lo + 1) cs = true) ∨
    (∃ v cs', cs = (lo, v) :: cs' ∧ v ≠ blank ∧ cellsWf len (lo + 1) cs' = true) := by
  cases cs with
  | nil => exact .inl ⟨rfl, rfl⟩
  | cons c cs =>
    obtain ⟨a, v⟩ := c
    obtain ⟨hlo, hlen, hv, hcs⟩ := cellsWf_cons.1 hw
    obtain rfl | hlt := Nat.eq_or_lt_of_le hlo
    · exact .inr ⟨v, cs, rfl, hv, hcs⟩
    · have hw' := cellsWf_cons.2 ⟨hlt, hlen, hv, hcs⟩
      exact .inl ⟨lookup_of_cellsWf_of_lt hw' (Nat.lt_succ_self lo), hw'⟩

/-- Canonical cells are those of the words they hold, so they hold nothing else. -/
theorem cellsFrom_map_lookup {lo : Nat} (n : Nat) {cs : List (Nat × Word)} (hw : cellsWf (lo + n) lo cs = true) :
    cellsFrom lo ((List.range' lo n).map (lookup cs)) = cs := by
  induction n generalizing lo cs with
  | zero =>
    cases cs with
    | nil => rfl
    | cons c cs =>
      obtain ⟨hlo, hlen, _⟩ := cellsWf_cons.1 hw
      omega
  | succ n ih =>
    have hlen : lo + (n + 1) = lo + 1 + n := by omega
    rw [hlen] at hw
    rw [List.range'_succ, List.map_cons, cellsFrom]
    obtain ⟨hblank, hw⟩ | ⟨v, cs, rfl, hv, hw⟩ := cellsWf_cases hw
    · rw [if_pos hblank, ih hw]
    · have hhead : lookup ((lo, v) :: cs) lo = v := if_pos rfl
      have htail : (List.range' (lo + 1) n).map (lookup ((lo, v) :: cs)) = (List.range' (lo + 1) n).map (lookup cs) :=
        List.map_congr_left fun a ha => if_neg (by have := List.mem_range'_1.1 ha; omega)
      rw [hhead, if_neg hv, htail, ih hw]

/-- A memory in canonical form is the one loaded from its words. -/
theorem ofWords_words {m : Memory} (h : m.wf = true) : ofWords m.words = m := by
  have hcells : cellsFrom 0 m.words = m.cells := by
    rw [words, List.range_eq_range']
    exact cellsFrom_map_lookup m.len (by rwa [Nat.zero_add])
  rw [ofWords, words_length, hcells]

end Memory

/-- Settles O35: each memory is the one loaded from its words. -/
theorem canonicalMemoriesOfEqualWordsAreEqual : Obligations.CanonicalMemoriesOfEqualWordsAreEqual := by
  intro m m' hm hm' hwords
  rw [← Memory.ofWords_words hm, hwords, Memory.ofWords_words hm']

end Sys2Proof.Machine
end

section
/-!
PROOFS. A fetch is the decoding of memory's words from PC on (R93), so a step runs what the step before it stored (R55).
-/

namespace Sys2Proof.Machine

/-! ### Fetching is decoding -/

/-- At an address that is a natural number, reading is indexing. -/
theorem Memory.read_natCast (m : Memory) (a : Nat) : m.read (a : Int) = m.words[a]? := by
  rw [read_eq_getElem?_words, if_pos (Int.natCast_nonneg a), Int.toNat_natCast]

theorem mapError_bind {ε ε' α β : Type} (g : ε → ε') (x : Except ε α) (f : α → Except ε β) :
    (x >>= f).mapError g = x.mapError g >>= fun a => (f a).mapError g := by
  cases x <;> rfl

/-- Renaming the errors of the parameters renames those of the instruction; parameters are counted from 1. -/
theorem buildInstr_mapError {ε ε' : Type} (g : ε → ε') {param : Nat → Except ε Word} {param' : Nat → Except ε' Word}
    (h : ∀ k, param' (k + 1) = (param (k + 1)).mapError g) (ms : Modes) (op : Opcode) :
    buildInstr param' ms op = (buildInstr param ms op).mapError g := by
  cases op <;> simp only [buildInstr, h, mapError_bind] <;> rfl

/-- The parameter word in memory is the one in the list of the words after the instruction word (R94). -/
theorem fetchParam_eq_listParam (m : Memory) (pc k : Nat) :
    fetchParam m pc (k + 1) = (listParam (m.words.drop (pc + 1)) (k + 1)).mapError (causeOfDecodeError pc) := by
  have hread : m.read ((pc : Int) + (k + 1 : Nat)) = (m.words.drop (pc + 1))[k]? := by
    rw [← Int.natCast_add, Memory.read_natCast, List.getElem?_drop, Nat.add_assoc, Nat.add_comm 1 k]
  rw [fetchParam, memRead, listParam, hread, Nat.add_sub_cancel]
  cases (m.words.drop (pc + 1))[k]? <;> rfl

/-- The fetch of R93 decodes the words of memory from PC on, and raises the fault of the decoder's error. -/
theorem fetchInstr_eq_decode (m : Memory) (pc : Nat) :
    fetchInstr m pc = ((decode (m.words.drop pc)).map Prod.fst).mapError (causeOfDecodeError pc) := by
  have hread : m.read (pc : Int) = (m.words.drop pc).head? := by rw [Memory.read_natCast, List.head?_drop]
  rw [fetchInstr, memRead, hread]
  cases hwords : m.words.drop pc with
  | nil => rfl
  | cons w rest =>
    have hrest : m.words.drop (pc + 1) = rest := by rw [← List.tail_drop, hwords, List.tail_cons]
    simp only [List.head?_cons, decode]
    cases checkHead (decodeWord w) with
    | error e => rfl
    | ok head =>
      obtain ⟨op, ms⟩ := head
      refine (buildInstr_mapError _ (fetchParam_eq_listParam m pc) ms op).trans ?_
      simp only [hrest, bind, Except.bind]
      cases buildInstr (listParam rest) ms op <;> rfl

/-! ### The step that decodes -/

/-- A RUNNING state whose words at PC decode to an instruction executes it (R93). -/
theorem step_eq_exec {s : State} {i : Instr} {rest : List Word} (hrunning : s.rs = .running)
    (hdecode : decode (s.mem.words.drop s.pc) = .ok (i, rest)) : step s = exec i s := by
  have hfetch : fetchInstr s.mem s.pc = .ok i := by rw [fetchInstr_eq_decode, hdecode]; rfl
  simp only [step, hrunning, hfetch]

/-- An ADD whose operands, destination and sum are good stores the sum and advances (R110). -/
theorem exec_add_eq_next {s : State} {ms : Modes} {p1 p2 p3 a b : Int} (ha : OperandIs s.mem ms.m1 p1 a)
    (hb : OperandIs s.mem ms.m2 p2 b) (hin : s.mem.inBounds p3) (hfits : fits (a + b)) :
    exec (.add ms p1 p2 p3) s = .next ((s.store p3 (a + b)).advance (.seq 4)) := by
  rw [exec_eq_finish, finish_eq_next]
  exact .inl ((arithmetic_eq_ok ..).2 ⟨a, b, ha, hb, hin, hfits, rfl⟩)

/-- Settles O26: the ADD's step leaves the state with the sum stored, RUNNING, and what is decoded there is what the
next step runs. -/
theorem aStoreIsSeenByTheNextFetch : Obligations.AStoreIsSeenByTheNextFetch := by
  intro s ms p1 p2 p3 a b rest i rest' hrunning hadd ha hb hin hfits hnext
  have hwords := s.mem.words_write (a + b) hin
  have hstep := (step_eq_exec hrunning hadd).trans (exec_add_eq_next ha hb hin hfits)
  exact ⟨_, hstep, rfl, hwords, step_eq_exec hrunning (by simpa [hwords] using hnext)⟩

end Sys2Proof.Machine
end

section
/-!
PROOFS. The instruction word as its decimal digits: what the decoder reads, which words the engine's checks accept, and
the round trip from words to an instruction and back.
-/

namespace Sys2Proof

open Machine

/-! ### The fields of an instruction word -/

/-- Settles O13: division and remainder by the powers of ten take the digits off one by one. -/
theorem decoderReadsDecimalDigits : Obligations.DecoderReadsDecimalDigits := by
  intro opcode d1 d2 d3 x hop h1 h2 h3
  simp only [decodeWord, decimalDigit, Int.toNat_natCast, decide_eq_false_iff_not]
  omega

/-- A word that is not negative is the sum of its fields, each at its decimal place (R61). -/
theorem eq_sum_of_fields {w : Int} (h : 0 ≤ w) :
    w = (((decodeWord w).opcode + 100 * (decodeWord w).m1 + 1000 * (decodeWord w).m2 + 10000 * (decodeWord w).m3 +
      100000 * (decodeWord w).excess : Nat) : Int) := by
  simp only [decodeWord, decimalDigit]
  omega

/-- The decoder's `known` is the legality of the opcode, with every negative word unknown (R66, R67, R70). -/
theorem known_iff (w : Int) : (decodeWord w).known = true ↔ 0 ≤ w ∧ LegalOpcode w := by
  simp only [decodeWord, LegalOpcode, Bool.and_eq_true, Bool.not_eq_true', decide_eq_false_iff_not,
    decide_eq_true_eq, List.mem_cons, List.not_mem_nil, or_false]
  omega

/-- The decoder's `modesOk` is the legality of the mode digits and the excess (R68, R69). -/
theorem modesOk_iff {w : Int} (h : 0 ≤ w) : (decodeWord w).modesOk = true ↔ LegalModes w := by
  simp only [decodeWord, decimalDigit, LegalModes, Bool.and_eq_true, decide_eq_true_eq, List.mem_cons,
    List.not_mem_nil, or_false]
  omega

/-- The fields that `modesOk` allows (R68, R69). -/
theorem fields_of_modesOk {w : Int} (h : (decodeWord w).modesOk = true) :
    (decodeWord w).excess = 0 ∧ (decodeWord w).m1 ≤ 1 ∧ (decodeWord w).m2 ≤ 1 ∧ (decodeWord w).m3 ≤ 1 := by
  simp only [decodeWord, Bool.and_eq_true, decide_eq_true_eq, List.mem_cons, List.not_mem_nil, or_false] at h ⊢
  omega

/-- A legal mode digit is the digit of its mode (R65). -/
theorem modeDigit_modeOfDigit {d : Nat} (h : d ≤ 1) : modeDigit (modeOfDigit d) = d := by
  obtain rfl | rfl := Nat.le_one_iff_eq_zero_or_eq_one.1 h <;> rfl

theorem legalModes_instructionWord (op : Opcode) (ms : Modes) : LegalModes (instructionWord (opcodeValue op) ms) := by
  have hop := opcodeValue_le op
  have h1 := modeDigit_le_one ms.m1
  have h2 := modeDigit_le_one ms.m2
  have h3 := modeDigit_le_one ms.m3
  rw [LegalModes, instructionWord]
  omega

/-! ### The words the engine's checks accept -/

/-- A word the checks accept is the instruction word of the operation and the modes they give (R73, R77). -/
theorem eq_instructionWord_of_checkHead {w : Int} {op : Opcode} {ms : Modes}
    (h : checkHead (decodeWord w) = .ok (op, ms)) : w = instructionWord (opcodeValue op) ms := by
  obtain ⟨hknown, hop, hmodes, rfl⟩ := checkHead_eq_ok h
  obtain ⟨hexcess, h1, h2, h3⟩ := fields_of_modesOk hmodes
  have hw := eq_sum_of_fields ((known_iff w).1 hknown).1
  rw [(opcodeOfNat_eq_some ..).1 hop, hexcess] at hw
  rwa [instructionWord, decodedModes, modeDigit_modeOfDigit h1, modeDigit_modeOfDigit h2, modeDigit_modeOfDigit h3]

/-- Settles O14: an accepted word is the sum of its fields, and every instruction word is accepted. -/
theorem legalWordsSelectTheirOperation : Obligations.LegalWordsSelectTheirOperation := by
  intro w op ms
  constructor
  · intro h
    obtain rfl := eq_instructionWord_of_checkHead h
    exact ⟨legalModes_instructionWord op ms, rfl⟩
  · rintro ⟨_, rfl⟩
    exact Laws.HeadRoundTrip.checkHead_word op ms.m1 ms.m2 ms.m3

/-! ### From words to an instruction and back -/

/-- Settles O10. -/
theorem decodeOfEncodeIsIdentity : Obligations.DecodeOfEncodeIsIdentity :=
  decode_encode_append

theorem listParam_eq_ok {rest : List Word} {k : Nat} {p : Word} (h : listParam rest (k + 1) = .ok p) :
    rest[k]? = some p := by
  unfold listParam at h
  split at h
  · rename_i hk
    rwa [← Except.ok.inj h]
  · cases h

/-- The parameters of an instruction built from a list of words are the first words of the list (R63). -/
theorem params_prefix_of_buildInstr {rest : List Word} {ms : Modes} {op : Opcode} {i : Instr}
    (h : buildInstr (listParam rest) ms op = .ok i) : i.params <+: rest := by
  obtain ⟨_, _, hparams⟩ := buildInstr_eq_ok h
  exact List.prefix_iff_getElem?.2 fun k hk => listParam_eq_ok (hparams k _ (List.getElem?_eq_getElem hk))

/-- A word and the words after it that decode passed the checks, and the parameters stand before the words left
over. -/
theorem decode_cons_eq_ok {w : Word} {rest after : List Word} {i : Instr} (h : decode (w :: rest) = .ok (i, after)) :
    checkHead (decodeWord w) = .ok (i.op, i.modes) ∧ i.params ++ after = rest := by
  simp only [decode, bind_eq_ok, pure_eq_ok, Prod.mk.injEq] at h
  obtain ⟨⟨op, ms⟩, hhead, i, hbuild, rfl, rfl⟩ := h
  obtain ⟨rfl, rfl, _⟩ := buildInstr_eq_ok hbuild
  rw [← params_length]
  exact ⟨hhead, List.prefix_iff_eq_append.1 (params_prefix_of_buildInstr hbuild)⟩

/-- Settles O11: the accepted word is the encoder's, and the parameters are the words that follow it. -/
theorem encodeOfDecodeIsIdentity : Obligations.EncodeOfDecodeIsIdentity := by
  intro ws i rest h
  cases ws with
  | nil => cases h
  | cons w tail =>
    obtain ⟨hhead, htail⟩ := decode_cons_eq_ok h
    have hw : w = encodeWord i := eq_instructionWord_of_checkHead hhead
    rw [encode, ← hw, List.cons_append, htail]

/-! ### Lengths -/

theorem encode_length (i : Instr) : (encode i).length = opcodeLength i.op := by
  cases i <;> rfl

/-- The decoder's `len` is the length of the operation that the opcode selects (R63, R82). -/
theorem len_of_opcode {w : Int} {op : Opcode} (h : (decodeWord w).opcode = opcodeValue op) :
    (decodeWord w).len = opcodeLength op := by
  simp only [decodeWord] at h ⊢
  rw [h]
  cases op <;> rfl

/-- Settles O17: the opcode fixes both lengths, and the words are the encoding and the words left over. -/
theorem lengthIsTheDecodersLen : Obligations.LengthIsTheDecodersLen := by
  intro w rest i after h
  obtain ⟨_, hop, _, _⟩ := checkHead_eq_ok (decode_cons_eq_ok h).1
  have hlen : (encode i).length = (decodeWord w).len :=
    (encode_length i).trans (len_of_opcode ((opcodeOfNat_eq_some ..).1 hop)).symm
  have hwords := congrArg List.length (encodeOfDecodeIsIdentity _ _ _ h)
  rw [List.length_append, hlen, List.length_cons] at hwords
  exact ⟨hlen, hwords.symm⟩

/-! ### Worked examples and ignored digits -/

/-- Settles O16: each example is an encoding and the words after it. -/
theorem specExamplesDecode : Obligations.SpecExamplesDecode :=
  ⟨decode_encode_append (.mul ⟨.position, .immediate, .position⟩ 4 3 4) [33],
    decode_encode_append (.eq ⟨.immediate, .immediate, .immediate⟩ 5 6 7) [],
    decode_encode_append (.out ⟨.immediate, .position, .position⟩ (-5)) [99],
    decode_encode_append (.halt ⟨.position, .position, .position⟩) [],
    decode_encode_append (.jt ⟨.immediate, .immediate, .position⟩ 1 4) [0, 99]⟩

/-- Setting the ignored digits to 0 changes no execution: the digits of sources are kept, and IN and HALT, which lose
all three, read none (R71, R72). -/
theorem exec_withModes_usedModes (i : Instr) (s : State) : exec (withModes i (usedModes i)) s = exec i s := by
  cases i with
  | add | mul | lt | eq | jt | jf | out => rfl
  | inp | halt => rfl

/-- Settles O18. -/
theorem ignoredDigitsHaveNoEffect : Obligations.IgnoredDigitsHaveNoEffect := fun i s rest =>
  ⟨decode_encode_append (withModes i (usedModes i)) rest, exec_withModes_usedModes i s⟩

/-! ### Illegal words -/

theorem checkHead_of_not_known {d : Decoded} (h : d.known = false) : checkHead d = .error .unknownOpcode := by
  rw [checkHead, h]

/-- A word with a legal opcode passes the checks exactly when its digits do, and else fails by them (R68, R69). -/
theorem checkHead_of_known {w : Int} (h : (decodeWord w).known = true) :
    ∃ op, checkHead (decodeWord w) =
      if (decodeWord w).modesOk then .ok (op, decodedModes (decodeWord w)) else .error .illegalMode := by
  obtain ⟨op, hop⟩ := opcodeOfNat_of_known h
  exact ⟨op, by rw [checkHead, h, hop]⟩

/-- A step at a word the checks refuse enters that fault before any parameter word is read (R93, R168). -/
theorem step_of_checkHead_error {s : State} {w : Int} {e : DecodeError} (hrunning : s.rs = .running)
    (hw : s.mem.read s.pc = some w) (h : checkHead (decodeWord w) = .error e) :
    step s = .next (s.enterFault (causeOfDecodeError s.pc e)) := by
  simp only [step, hrunning, fetchInstr, (memRead_eq_ok ..).2 hw, h]

/-- Settles O15: `known` and `modesOk` are the legality of the opcode and of the digits, checked in this order. -/
theorem illegalWordsFault : Obligations.IllegalWordsFault := by
  intro s w hrunning hw
  have hunknown (h : ¬ (0 ≤ w ∧ LegalOpcode w)) : step s = .next (s.enterFault .unknownOpcode) :=
    step_of_checkHead_error hrunning hw
      (checkHead_of_not_known (Bool.eq_false_of_not_eq_true (mt (known_iff w).1 h)))
  refine ⟨fun hneg => ⟨hunknown fun h => by omega, ?_⟩, fun _ hop => hunknown fun h => hop h.2, ?_, ?_⟩
  · have hrecorded : recordedOpcode w = none := if_pos (decide_eq_true hneg)
    rw [faultRecord, hw, Option.bind_some, hrecorded]
  · intro h0 hop hmodes
    obtain ⟨op, hhead⟩ := checkHead_of_known ((known_iff w).2 ⟨h0, hop⟩)
    rw [if_neg (mt (modesOk_iff h0).1 hmodes)] at hhead
    exact step_of_checkHead_error hrunning hw hhead
  · intro h0 hop hmodes
    obtain ⟨op, hhead⟩ := checkHead_of_known ((known_iff w).2 ⟨h0, hop⟩)
    rw [if_pos ((modesOk_iff h0).2 hmodes)] at hhead
    exact ⟨op, _, hhead⟩

end Sys2Proof
end

section
/-!
PROOFS. The step (R92 to R94): when it is enabled, what it does at the words it decodes, which fault it enters where
they start no instruction, and that the host's placed bits are what it decodes.
-/

namespace Sys2Proof.Machine

/-! ### When a step is enabled -/

/-- Every execution answers a next state: the effect, or fault entry (R170). -/
theorem exists_exec_eq_next (i : Instr) (s : State) : ∃ t, exec i s = .next t := by
  rw [exec_eq_finish]
  cases effectOf i s <;> exact ⟨_, rfl⟩

theorem step_of_fetchInstr_error {s : State} {c : Cause} (hrunning : s.rs = .running)
    (h : fetchInstr s.mem s.pc = .error c) : step s = .next (s.enterFault c) := by
  simp only [step, hrunning, h]

theorem step_of_fetchInstr_ok {s : State} {i : Instr} (hrunning : s.rs = .running)
    (h : fetchInstr s.mem s.pc = .ok i) : step s = exec i s := by
  simp only [step, hrunning, h]

theorem exists_step_eq_next {s : State} (hrunning : s.rs = .running) : ∃ t, step s = .next t := by
  cases hfetch : fetchInstr s.mem s.pc with
  | error c => exact ⟨_, step_of_fetchInstr_error hrunning hfetch⟩
  | ok i => exact step_of_fetchInstr_ok hrunning hfetch ▸ exists_exec_eq_next i s

/-- Settles O22: a next state comes from RUNNING alone, and RUNNING always has one. -/
theorem stepEnabledExactlyWhenRunning : Obligations.StepEnabledExactlyWhenRunning := by
  refine fun s => ⟨⟨?_, exists_step_eq_next⟩, fun h => by simp only [step, h], fun h => by simp only [step, h]⟩
  rintro ⟨t, ht⟩
  exact (step_eq_next s t ht).1

/-! ### The step at decoded words -/

/-- Settles O19. -/
theorem stepRunsDecodedInstruction : Obligations.StepRunsDecodedInstruction :=
  fun _ _ _ => step_eq_exec

theorem fetchInstr_of_decode_ok {m : Memory} {pc : Nat} {i : Instr} {rest : List Word}
    (h : decode (m.words.drop pc) = .ok (i, rest)) : fetchInstr m pc = .ok i := by
  rw [fetchInstr_eq_decode, h]
  rfl

theorem fetchInstr_of_decode_error {m : Memory} {pc : Nat} {e : DecodeError}
    (h : decode (m.words.drop pc) = .error e) : fetchInstr m pc = .error (causeOfDecodeError pc e) := by
  rw [fetchInstr_eq_decode, h]
  rfl

/-- Settles O20: the fetch raises the fault of the decoder's error, and FETCH only where PC is no valid address. -/
theorem stepFaultsWhereNoInstructionStarts : Obligations.StepFaultsWhereNoInstructionStarts := by
  intro s hrunning
  have hstep {e : DecodeError} (h : decode (s.mem.words.drop s.pc) = .error e) :
      step s = .next (s.enterFault (causeOfDecodeError s.pc e)) :=
    step_of_fetchInstr_error hrunning (fetchInstr_of_decode_error h)
  refine ⟨fun h => ⟨?_, hstep h⟩, hstep, hstep, fun k => hstep⟩
  obtain ⟨hout, _⟩ : CauseHolds s (.outOfBounds s.pc .fetch) :=
    fetchInstr_causeHolds (fetchInstr_of_decode_error h)
  omega

/-! ### Parameter words past the end of memory -/

/-- Where no instruction is built, one of the operation's parameter words is not obtained, and the one before it, if
there is one, is (R94). -/
theorem exists_missing_param_of_buildInstr {ε : Type} {param : Nat → Except ε Word} {ms : Modes} {op : Opcode} {e : ε}
    (h : buildInstr param ms op = .error e) :
    ∃ k, k + 1 < opcodeLength op ∧ param (k + 1) = .error e ∧ (k = 0 ∨ ∃ p, param k = .ok p) := by
  cases op <;> simp only [buildInstr, bind_eq_error, pure_ne_error, and_false, exists_false, or_false] at h
  case add | mul | lt | eq =>
    obtain h1 | ⟨p1, h1, h2 | ⟨p2, h2, h3⟩⟩ := h
    · exact ⟨0, by decide, h1, .inl rfl⟩
    · exact ⟨1, by decide, h2, .inr ⟨p1, h1⟩⟩
    · exact ⟨2, by decide, h3, .inr ⟨p2, h2⟩⟩
  case jt | jf =>
    obtain h1 | ⟨p1, h1, h2⟩ := h
    · exact ⟨0, by decide, h1, .inl rfl⟩
    · exact ⟨1, by decide, h2, .inr ⟨p1, h1⟩⟩
  case inp | out => exact ⟨0, by decide, h, .inl rfl⟩

/-- The first parameter word that is missing from memory stands at the first address past it, N (R94). -/
theorem missing_param_at_end {m : Memory} {pc : Nat} {ms : Modes} {op : Opcode} {c : Cause} (hpc : m.inBounds pc)
    (h : buildInstr (fetchParam m pc) ms op = .error c) :
    m.len < pc + opcodeLength op ∧ c = .outOfBounds m.len .param := by
  obtain ⟨k, hk, herror, hbefore⟩ := exists_missing_param_of_buildInstr h
  obtain ⟨hout, rfl⟩ := (memRead_eq_error ..).1 herror
  have hprevious : m.inBounds ((pc : Int) + k) := by
    obtain rfl | ⟨p, hp⟩ := hbefore
    · simpa using hpc
    · exact ((Memory.read_eq_some ..).1 ((memRead_eq_ok ..).1 hp)).1
  have hend : (pc : Int) + (k + 1 : Nat) = m.len := by omega
  exact ⟨by omega, by rw [hend]⟩

theorem fetchInstr_of_checkHead_ok {m : Memory} {pc : Nat} {w : Int} {op : Opcode} {ms : Modes}
    (hw : m.read pc = some w) (hhead : checkHead (decodeWord w) = .ok (op, ms)) :
    fetchInstr m pc = buildInstr (fetchParam m pc) ms op := by
  simp only [fetchInstr, (memRead_eq_ok ..).2 hw, hhead]

/-- Settles O21: either all parameter words are in memory, and so is the whole instruction, or the first one missing is
at N. -/
theorem parameterPastTheEndFaults : Obligations.ParameterPastTheEndFaults := by
  intro s w op ms hrunning hw hhead
  have hfetch := fetchInstr_of_checkHead_ok hw hhead
  cases hbuild : buildInstr (fetchParam s.mem s.pc) ms op with
  | error c =>
    obtain ⟨hlong, rfl⟩ := missing_param_at_end ((Memory.read_eq_some ..).1 hw).1 hbuild
    exact ⟨fun _ => step_of_fetchInstr_error hrunning (hfetch.trans hbuild), fun hfits => by omega⟩
  | ok i =>
    obtain ⟨rfl, rfl, _⟩ := buildInstr_eq_ok hbuild
    have hfits := fetchInstr_length_le (hfetch.trans hbuild)
    exact ⟨fun hlong => by omega, fun _ => ⟨i, rfl, rfl, step_of_fetchInstr_ok hrunning (hfetch.trans hbuild)⟩⟩

/-! ### Placed bits -/

/-- Consecutive writes inside memory replace a stretch of its words (R47, R57). -/
theorem Memory.words_writeFrom (m : Memory) (a : Nat) (vs : List Word) (h : a + vs.length ≤ m.len) :
    (m.writeFrom a vs).words = m.words.take a ++ vs ++ m.words.drop (a + vs.length) := by
  induction vs generalizing m a with
  | nil => simp [writeFrom]
  | cons v vs ih =>
    rw [List.length_cons] at h
    have hin : m.inBounds a := by omega
    have htake : (m.words.set a v).take (a + 1) = m.words.take a ++ [v] := by
      rw [List.take_add_one, List.take_set_of_le le_rfl, List.getElem?_set_self (by rw [words_length]; omega),
        Option.toList_some]
    have hdrop : (m.words.set a v).drop (a + 1 + vs.length) = m.words.drop (a + (vs.length + 1)) := by
      rw [List.drop_set_of_lt (by omega), Nat.add_assoc, Nat.add_comm 1]
    rw [writeFrom, ih _ _ (by rw [write_len]; omega), words_write m v hin, Int.toNat_natCast, htake, hdrop,
      List.length_cons]
    simp

/-- From PC on, a state with placed words holds those words and what stood after them (log entry 6). -/
theorem placeAtPc_words_drop (s : State) (ws : List Word) :
    ∃ rest, (placeAtPc s ws).mem.words.drop s.pc = ws ++ rest := by
  have hlen : s.pc + ws.length ≤ (s.mem.growTo (s.pc + ws.length)).len := Nat.le_max_right ..
  have hpc : ((s.mem.growTo (s.pc + ws.length)).words.take s.pc).length = s.pc := by
    rw [List.length_take, Memory.words_length]
    omega
  refine ⟨(s.mem.growTo (s.pc + ws.length)).words.drop (s.pc + ws.length), ?_⟩
  rw [placeAtPc, Memory.words_writeFrom _ _ _ hlen, List.append_assoc, List.drop_left' hpc]

/-- Decoding looks at no word after the instruction. -/
theorem decode_append {ws rest : List Word} {i : Instr} (h : decode ws = .ok (i, rest)) (more : List Word) :
    decode (ws ++ more) = .ok (i, rest ++ more) := by
  rw [← encodeOfDecodeIsIdentity ws i rest h, List.append_assoc]
  exact decode_encode_append i (rest ++ more)

theorem decode_of_decodeTableWord {nbits w : Nat} {i : Instr} (h : decodeTableWord nbits w = some i) :
    ∃ rest, decode (tableWords nbits w) = .ok (i, rest) := by
  unfold decodeTableWord at h
  split at h
  · rename_i rest hdecode
    exact ⟨rest, Option.some.inj h ▸ hdecode⟩
  · cases h

/-- Settles O38: the placed words are the first words at PC, and what follows them does not change what they decode
to. -/
theorem placedTableWordRunsNext : Obligations.PlacedTableWordRunsNext := by
  intro s nbits w i h
  obtain ⟨rest, hdecode⟩ := decode_of_decodeTableWord h
  obtain ⟨more, hwords⟩ := placeAtPc_words_drop s (tableWords nbits w)
  exact step_eq_exec rfl ((congrArg decode hwords).trans (decode_append hdecode more))

end Sys2Proof.Machine
end

section
/-!
PROOFS. What an execution leaves unchanged (R96), which words halt (R89, R90), and that operands count by their values
alone (R87).
-/

namespace Sys2Proof.Machine

/-! ### The frame of a completed instruction -/

theorem Memory.read_write_of_ne (m : Memory) {a x : Int} (v : Word) (h : x ≠ a) :
    (m.write a v).read x = m.read x := by
  by_cases hin : m.inBounds a
  · rw [read_write m a x v hin, if_neg h]
  · rw [write_of_not_inBounds m a v hin]

/-- What `i` may change from `s` to `t` when it completes: its destination's word, `IC` by IN, one word at the end of
`OUT` by OUT, `RS` by HALT, and the PC (R96). -/
structure Frame (i : Instr) (s t : State) : Prop where
  words : ∀ x : Int, destinationOf i ≠ some x → t.mem.read x = s.mem.read x
  length : t.mem.len = s.mem.len
  inq : t.inq = s.inq
  ic : t.ic = s.ic ∨ (i.op = .inp ∧ t.ic = s.ic + 1)
  out : t.out = s.out ∨ (i.op = .out ∧ ∃ v, t.out = s.out ++ [v])
  rs : t.rs = s.rs ∨ (i.op = .halt ∧ t.rs = .halted)
  fr : t.fr = s.fr

theorem Frame.advance (i : Instr) (s : State) (n : NextPc) : Frame i s (s.advance n) :=
  ⟨fun _ _ => rfl, rfl, rfl, .inl rfl, .inl rfl, .inl rfl, rfl⟩

/-- A store at the destination and the PC's update stay within the frame. -/
theorem Frame.store {i : Instr} {s t : State} {a : Int} (h : Frame i s t) (ha : destinationOf i = some a) (v : Word)
    (n : NextPc) : Frame i s ((t.store a v).advance n) := by
  refine { h with words := fun x hx => ?_, length := (Memory.write_len ..).trans h.length }
  have hne : x ≠ a := fun e => hx (e ▸ ha)
  exact (Memory.read_write_of_ne _ v hne).trans (h.words x hx)

theorem Frame.refl (i : Instr) (s : State) : Frame i s s :=
  Frame.advance i s .hold

theorem effectOf_frame {i : Instr} {s t : State} (h : effectOf i s = .ok t) : Frame i s t := by
  cases i with
  | add | mul =>
    obtain ⟨_, _, _, _, _, _, rfl⟩ := (arithmetic_eq_ok ..).1 h
    exact (Frame.refl _ s).store rfl _ _
  | lt =>
    obtain ⟨_, _, _, _, _, rfl⟩ := (comparison_eq_ok (fun a b => decide (a < b)) ..).1 h
    exact (Frame.refl _ s).store rfl _ _
  | eq =>
    obtain ⟨_, _, _, _, _, rfl⟩ := (comparison_eq_ok (fun a b => decide (a = b)) ..).1 h
    exact (Frame.refl _ s).store rfl _ _
  | inp ms p1 =>
    obtain ⟨v, _, _, rfl⟩ := (inputEffect_eq_ok ..).1 h
    have hpop : Frame (.inp ms p1) s s.popInput := { Frame.refl _ s with ic := .inr ⟨rfl, rfl⟩ }
    exact hpop.store rfl v _
  | out =>
    obtain ⟨v, _, rfl⟩ := (outputEffect_eq_ok ..).1 h
    exact { Frame.refl _ s with out := .inr ⟨rfl, v, rfl⟩ }
  | jt | jf =>
    obtain ⟨_, _, _, _, ⟨_, _, rfl⟩ | ⟨_, rfl⟩⟩ := (jump_eq_ok ..).1 h <;> exact Frame.advance ..
  | halt =>
    obtain rfl := Except.ok.inj h
    exact { Frame.refl _ s with rs := .inr ⟨rfl, rfl⟩ }

/-- Settles O24: a completed instruction keeps within its frame, and fault entry changes `RS` and `FR` alone. -/
theorem frameOfEveryInstruction : Obligations.FrameOfEveryInstruction := by
  intro i s t h
  rw [exec_eq_finish, finish_eq_next] at h
  obtain heffect | ⟨c, _, rfl⟩ := h
  · obtain ⟨hwords, hlength, hinq, hic, hout, hrs, hfr⟩ := effectOf_frame heffect
    exact ⟨hwords, hlength, hinq, hic, hout, hrs.imp_right .inl, .inl hfr⟩
  · exact ⟨fun _ _ => rfl, rfl, rfl, .inl rfl, .inl rfl, .inr (.inr ⟨rfl, c, rfl⟩), .inr rfl⟩

/-! ### Which words halt -/

/-- The halt_detector asks for a word that is not negative, with opcode 99 and legal digits (R89). -/
theorem haltReq_iff (w : Int) : haltReq (decodeWord w) = true ↔ 0 ≤ w ∧ w % 100 = 99 ∧ LegalModes w := by
  have hopcode (h : 0 ≤ w) : (decodeWord w).opcode = 99 ↔ w % 100 = 99 := by
    simp only [decodeWord]
    omega
  simp only [haltReq, Bool.and_eq_true, decide_eq_true_eq, known_iff]
  constructor
  · rintro ⟨⟨⟨h0, _⟩, hmodes⟩, h99⟩
    exact ⟨h0, (hopcode h0).1 h99, (modesOk_iff h0).1 hmodes⟩
  · rintro ⟨h0, h99, hmodes⟩
    have hlegal : LegalOpcode w := by simp [LegalOpcode, h99]
    exact ⟨⟨⟨h0, hlegal⟩, (modesOk_iff h0).2 hmodes⟩, (hopcode h0).2 h99⟩

/-- The checks select HALT exactly where the halt_detector asks for it (R89, R90). -/
theorem checkHead_halt_iff (w : Int) :
    (∃ ms, checkHead (decodeWord w) = .ok (.halt, ms)) ↔ haltReq (decodeWord w) = true := by
  constructor
  · rintro ⟨ms, h⟩
    obtain ⟨hknown, hop, hmodes, _⟩ := checkHead_eq_ok h
    simp [haltReq, hknown, hmodes, (opcodeOfNat_eq_some ..).1 hop, opcodeValue]
  · intro h
    simp only [haltReq, Bool.and_eq_true, decide_eq_true_eq] at h
    obtain ⟨⟨hknown, hmodes⟩, h99⟩ := h
    exact ⟨_, by rw [checkHead, hknown, h99, hmodes]; rfl⟩

/-- The fetch gives a HALT exactly at a word the halt_detector asks to halt at: HALT has no parameter words (R94). -/
theorem fetchInstr_halt_iff (m : Memory) (pc : Nat) :
    (∃ ms, fetchInstr m pc = .ok (.halt ms)) ↔ ∃ w, m.read pc = some w ∧ haltReq (decodeWord w) = true := by
  constructor
  · rintro ⟨ms, h⟩
    obtain ⟨⟨w, hw, hhead⟩, _⟩ := fetchInstr_eq_ok h
    exact ⟨w, hw, (checkHead_halt_iff w).1 ⟨_, hhead⟩⟩
  · rintro ⟨w, hw, h⟩
    obtain ⟨ms, hhead⟩ := (checkHead_halt_iff w).2 h
    exact ⟨ms, fetchInstr_of_checkHead_ok hw hhead⟩

/-- An instruction that halts a RUNNING machine is a HALT. -/
theorem eq_halt_of_effectOf_halted {i : Instr} {s t : State} (hrunning : s.rs = .running)
    (h : effectOf i s = .ok t) (hhalted : t.rs = .halted) : ∃ ms, i = .halt ms := by
  obtain hrs | ⟨hop, _⟩ := (effectOf_frame h).rs
  · rw [hhalted, hrunning] at hrs
    cases hrs
  · cases i <;> cases hop
    exact ⟨_, rfl⟩

theorem halted_iff_fetchInstr_halt {s t : State} (h : step s = .next t) :
    t.rs = .halted ↔ ∃ ms, fetchInstr s.mem s.pc = .ok (.halt ms) := by
  obtain ⟨hrunning, hcases⟩ := step_eq_next s t h
  constructor
  · intro hhalted
    obtain ⟨c, _, rfl⟩ | ⟨i, hfetch, heffect | ⟨c, _, rfl⟩⟩ := hcases
    · cases hhalted
    · obtain ⟨ms, rfl⟩ := eq_halt_of_effectOf_halted hrunning heffect hhalted
      exact ⟨ms, hfetch⟩
    · cases hhalted
  · rintro ⟨ms, hfetch⟩
    rw [step_of_fetchInstr_ok hrunning hfetch] at h
    cases h
    rfl

/-- Settles O23: a step halts exactly where it fetches a HALT, which is where `halt_req` is true, and HALT's effect is
on `RS` alone. -/
theorem onlyAHaltWordHalts : Obligations.OnlyAHaltWordHalts := by
  intro s t h
  have hreq := (halted_iff_fetchInstr_halt h).trans (fetchInstr_halt_iff s.mem s.pc)
  refine ⟨by simpa only [haltReq_iff] using hreq, hreq, fun hhalted => ?_⟩
  obtain ⟨ms, hfetch⟩ := (halted_iff_fetchInstr_halt h).1 hhalted
  rw [step_of_fetchInstr_ok (step_eq_next s t h).1 hfetch] at h
  cases h
  rfl

/-! ### Operands count by their values -/

theorem exec_congr {i j : Instr} {s : State} (h : effectOf i s = effectOf j s) : exec i s = exec j s := by
  rw [exec_eq_finish, exec_eq_finish, h]

section SameOperands

variable {s : State} {ms ms' : Modes} {p1 p1' p2 p2' : Word}
  (h : resolveTwo s.mem ms p1 p2 = resolveTwo s.mem ms' p1' p2')

include h

theorem arithmetic_congr (f : Int → Int → Int) (p3 : Word) :
    arithmetic f ms p1 p2 p3 s = arithmetic f ms' p1' p2' p3 s := by
  simp only [arithmetic, h]

theorem comparison_congr (rel : Int → Int → Bool) (p3 : Word) :
    comparison rel ms p1 p2 p3 s = comparison rel ms' p1' p2' p3 s := by
  simp only [comparison, h]

theorem jump_congr (taken : Word → Bool) : jump taken ms p1 p2 s = jump taken ms' p1' p2' s := by
  simp only [jump, h]

end SameOperands

/-- Settles O25: the rules read modes and raw parameters only to resolve the sources, and equal values resolve
alike. -/
theorem modesDoNotMatterForEqualOperands : Obligations.ModesDoNotMatterForEqualOperands := by
  intro s ms ms' p1 p1' p2 p2' p3 a b ha ha'
  refine ⟨exec_congr ?_, fun hb hb' => ?_⟩
  · simp only [effectOf, outputEffect, (resolve_eq_ok ..).2 ha, (resolve_eq_ok ..).2 ha']
  · have h := ((resolveTwo_eq_ok ..).2 ⟨ha, hb⟩).trans ((resolveTwo_eq_ok ..).2 ⟨ha', hb'⟩).symm
    exact ⟨exec_congr (arithmetic_congr h _ p3), exec_congr (arithmetic_congr h _ p3),
      exec_congr (comparison_congr h (fun a b => decide (a < b)) p3),
      exec_congr (comparison_congr h (fun a b => decide (a = b)) p3),
      exec_congr (jump_congr h _), exec_congr (jump_congr h _)⟩

/-! ### A run that never ends -/

/-- A taken JT with a valid target loads it into the PC and changes nothing else (R130). -/
theorem exec_jt_taken {s : State} {ms : Modes} {p1 p2 c t : Int} (hc : OperandIs s.mem ms.m1 p1 c)
    (ht : OperandIs s.mem ms.m2 p2 t) (hne : c ≠ 0) (hin : s.mem.inBounds t) :
    exec (.jt ms p1 p2) s = .next (s.advance (.load t.toNat)) := by
  rw [exec_eq_finish, finish_eq_next]
  exact .inl ((jump_eq_ok ..).2 ⟨c, t, hc, ht, .inl ⟨decide_eq_true hne, hin, rfl⟩⟩)

theorem runSteps_of_step_self {s : State} (h : step s = .next s) (n : Nat) : runSteps n s = s := by
  induction n with
  | zero => rfl
  | succ n ih =>
    rw [runSteps, h]
    exact ih

/-- Settles O43: the jump loads the PC it has, so each step gives the state back. -/
theorem aJumpToItselfNeverEnds : Obligations.AJumpToItselfNeverEnds := by
  intro s ms p1 p2 c rest hrunning hdecode hc hne htarget n
  have hlen := fetchInstr_length_le (fetchInstr_of_decode_ok hdecode)
  have hin : s.mem.inBounds s.pc := by
    simp only [Instr.op, opcodeLength] at hlen
    omega
  have hstep : step s = .next s := (step_eq_exec hrunning hdecode).trans (exec_jt_taken hc htarget hne hin)
  have hrun := runSteps_of_step_self hstep n
  exact ⟨hrun, by rw [execute, hrun, runResult, hrunning]⟩

end Sys2Proof.Machine
end

section
/-!
PROOFS. The rules of ADD and MUL (R110, R111), once for every exact operation `f`: the result's store, and the faults in
the order of R168.
-/

namespace Sys2Proof.Machine

/-- A store inside memory and the PC's passing `len` words leave the rest as it was (R96). -/
theorem storedAndAdvanced_store {s : State} {a : Int} (h : s.mem.inBounds a) (v : Word) (len : Nat) :
    StoredAndAdvanced s ((s.store a v).advance (.seq len)) a v len where
  stored := (Memory.read_write s.mem a a v h).trans (if_pos rfl)
  others _ hx := Memory.read_write_of_ne s.mem v hx
  length := Memory.write_len s.mem a v
  pc := rfl
  rs := rfl
  fr := rfl
  inq := rfl
  out := rfl

theorem finish_of_error {x : Except Cause State} {c : Cause} (s : State) (h : x = .error c) :
    finish s x = .next (s.enterFault c) :=
  (finish_eq_next ..).2 (.inr ⟨c, h, rfl⟩)

section ArithmeticRule

variable (f : Int → Int → Int) {ms : Modes} {p1 p2 p3 a b : Int} {s : State}

theorem finish_arithmetic_stores (ha : OperandIs s.mem ms.m1 p1 a) (hb : OperandIs s.mem ms.m2 p2 b)
    (hin : s.mem.inBounds p3) (hfits : fits (f a b)) :
    ∃ t, finish s (arithmetic f ms p1 p2 p3 s) = .next t ∧ StoredAndAdvanced s t p3 (f a b) 4 ∧ t.ic = s.ic := by
  have heffect := (arithmetic_eq_ok f ms p1 p2 p3 s _).2 ⟨a, b, ha, hb, hin, hfits, rfl⟩
  exact ⟨_, (finish_eq_next ..).2 (.inl heffect), storedAndAdvanced_store hin (f a b) 4, rfl⟩

theorem finish_arithmetic_first_bad (h : OperandBad s.mem ms.m1 p1) :
    finish s (arithmetic f ms p1 p2 p3 s) = .next (s.enterFault (.outOfBounds p1 .read)) := by
  have hresolve := (resolveTwo_eq_error s.mem ms p1 p2 _).2 (.inl ⟨h, rfl⟩)
  exact finish_of_error s ((arithmetic_eq_error ..).2 (.inl hresolve))

theorem finish_arithmetic_second_bad (ha : OperandIs s.mem ms.m1 p1 a) (h : OperandBad s.mem ms.m2 p2) :
    finish s (arithmetic f ms p1 p2 p3 s) = .next (s.enterFault (.outOfBounds p2 .read)) := by
  have hresolve := (resolveTwo_eq_error s.mem ms p1 p2 _).2 (.inr ⟨⟨a, ha⟩, h, rfl⟩)
  exact finish_of_error s ((arithmetic_eq_error ..).2 (.inl hresolve))

theorem finish_arithmetic_destination_bad (ha : OperandIs s.mem ms.m1 p1 a) (hb : OperandIs s.mem ms.m2 p2 b)
    (hout : ¬ s.mem.inBounds p3) :
    finish s (arithmetic f ms p1 p2 p3 s) = .next (s.enterFault (.outOfBounds p3 .write)) :=
  finish_of_error s ((arithmetic_eq_error ..).2 (.inr ⟨a, b, ha, hb, .inl ⟨hout, rfl⟩⟩))

theorem finish_arithmetic_overflow (ha : OperandIs s.mem ms.m1 p1 a) (hb : OperandIs s.mem ms.m2 p2 b)
    (hin : s.mem.inBounds p3) (hfits : ¬ fits (f a b)) :
    finish s (arithmetic f ms p1 p2 p3 s) = .next (s.enterFault (.arithmeticOverflow (f a b))) :=
  finish_of_error s ((arithmetic_eq_error ..).2 (.inr ⟨a, b, ha, hb, .inr ⟨hin, hfits, rfl⟩⟩))

end ArithmeticRule

/-- Settles O1: ADD finishes with the arithmetic rule of the exact sum, whose five outcomes these are. -/
theorem addFollowsItsRule : Obligations.AddFollowsItsRule := by
  intro ms p1 p2 p3 s
  exact ⟨rfl,
    fun _ _ => finish_arithmetic_stores (· + ·),
    finish_arithmetic_first_bad (· + ·),
    fun _ => finish_arithmetic_second_bad (· + ·),
    fun _ _ => finish_arithmetic_destination_bad (· + ·),
    fun _ _ => finish_arithmetic_overflow (· + ·)⟩

/-- Settles O2: MUL finishes with the arithmetic rule of the exact product, whose five outcomes these are. -/
theorem mulFollowsItsRule : Obligations.MulFollowsItsRule := by
  intro ms p1 p2 p3 s
  exact ⟨rfl,
    fun _ _ => finish_arithmetic_stores (· * ·),
    finish_arithmetic_first_bad (· * ·),
    fun _ => finish_arithmetic_second_bad (· * ·),
    fun _ _ => finish_arithmetic_destination_bad (· * ·),
    fun _ _ => finish_arithmetic_overflow (· * ·)⟩

end Sys2Proof.Machine
end

section
/-!
PROOFS. The rules of IN and OUT (R120, R121), and what a run takes in and puts out: each step takes from the front of
the queue and appends to `OUT` exactly the words it is said to receive and emit (R122, R123).
-/

namespace Sys2Proof.Machine

/-! ### The rules of IN and OUT -/

/-- `StoredAndAdvanced` says nothing of the cursor, so a pop before the store does not matter to it. -/
theorem StoredAndAdvanced.of_popInput {s t : State} {a : Int} {v : Word} {len : Nat}
    (h : StoredAndAdvanced s.popInput t a v len) : StoredAndAdvanced s t a v len :=
  { h with }

/-- Settles O3: a valid destination and a front of the queue give IN's effect, and the first of them that fails gives
the fault. -/
theorem inFollowsItsRule : Obligations.InFollowsItsRule := by
  intro ms p1 s
  refine ⟨rfl, fun v hin hv => ?_, fun hout => ?_, fun hin hempty => ?_⟩
  · have heffect := (inputEffect_eq_ok p1 s _).2 ⟨v, hin, hv, rfl⟩
    have hstored := storedAndAdvanced_store (s := s.popInput) hin v 2
    exact ⟨_, (finish_eq_next ..).2 (.inl heffect), hstored.of_popInput, rfl⟩
  · exact finish_of_error s ((inputEffect_eq_error ..).2 (.inl ⟨hout, rfl⟩))
  · have hfront : s.frontInput = none := List.getElem?_eq_none hempty.ge
    exact finish_of_error s ((inputEffect_eq_error ..).2 (.inr ⟨hin, hfront, rfl⟩))

/-- Settles O4: an operand that is worth `v` gives OUT's effect, and one out of bounds gives the fault. -/
theorem outFollowsItsRule : Obligations.OutFollowsItsRule := by
  intro ms p1 s
  refine ⟨rfl, fun v hv => ?_, fun hbad => ?_⟩
  · exact (finish_eq_next ..).2 (.inl ((outputEffect_eq_ok ms p1 s _).2 ⟨v, hv, rfl⟩))
  · exact finish_of_error s ((outputEffect_eq_error ..).2 ⟨hbad, rfl⟩)

/-! ### What one step takes in -/

/-- From `s` to `t` the words `ws` were taken from the front of what was left of the queue, and the cursor counts
them. -/
structure Took (s t : State) (ws : List Word) : Prop where
  queue : s.inq.drop s.ic = ws ++ t.inq.drop t.ic
  count : t.ic = s.ic + ws.length

theorem Took.nil {s t : State} (hinq : t.inq = s.inq) (hic : t.ic = s.ic) : Took s t [] :=
  ⟨by rw [hinq, hic, List.nil_append], hic⟩

theorem Took.trans {s t u : State} {ws vs : List Word} (h : Took s t ws) (h' : Took t u vs) : Took s u (ws ++ vs) :=
  ⟨by rw [h.queue, h'.queue, List.append_assoc], by rw [h'.count, h.count, List.length_append, Nat.add_assoc]⟩

/-- What was taken is that many words of the queue from the cursor on. -/
theorem Took.eq_take {s t : State} {ws : List Word} (h : Took s t ws) : ws = (s.inq.drop s.ic).take ws.length := by
  rw [h.queue, List.take_left]

theorem Took.of_frontInput {s t : State} {v : Word} (hv : s.frontInput = some v) (hinq : t.inq = s.inq)
    (hic : t.ic = s.ic + 1) : Took s t [v] := by
  obtain ⟨hlt, rfl⟩ := List.getElem?_eq_some_iff.1 hv
  exact ⟨by rw [hinq, hic, List.drop_eq_getElem_cons hlt, List.singleton_append], hic⟩

theorem receivedBy_enterFault (s : State) (c : Cause) : receivedBy s (s.enterFault c) = [] := by
  unfold receivedBy
  split
  · exact if_pos rfl
  · rfl

theorem receivedBy_inp {s t : State} {ms : Modes} {p1 v : Word} (hfetch : fetchInstr s.mem s.pc = .ok (.inp ms p1))
    (hrs : t.rs ≠ .faulted) (hv : t.mem.read p1 = some v) : receivedBy s t = [v] := by
  simp only [receivedBy, hfetch, if_neg hrs, hv, Option.toList_some]

theorem receivedBy_of_op_ne_inp {s t : State} {i : Instr} (hfetch : fetchInstr s.mem s.pc = .ok i)
    (hop : i.op ≠ .inp) : receivedBy s t = [] := by
  unfold receivedBy
  split
  · rename_i hinp
    cases hfetch.symm.trans hinp
    exact absurd rfl hop
  · rfl

/-- The word a completed IN receives, read where it was stored, is the queue's front. -/
theorem took_of_inputEffect {s t : State} {ms : Modes} {p1 : Word} (hrunning : s.rs = .running)
    (hfetch : fetchInstr s.mem s.pc = .ok (.inp ms p1)) (h : inputEffect p1 s = .ok t) :
    Took s t (receivedBy s t) := by
  obtain ⟨v, hin, hv, rfl⟩ := (inputEffect_eq_ok ..).1 h
  have hstored := (storedAndAdvanced_store (s := s.popInput) hin v 2).of_popInput
  rw [receivedBy_inp hfetch (by simp [hrunning]) hstored.stored]
  exact Took.of_frontInput hv rfl rfl

/-- A step takes in what it receives: a fault nothing, IN the front of the queue, and every other instruction keeps
the queue and the cursor. -/
theorem took_of_step {s t : State} (h : step s = .next t) : Took s t (receivedBy s t) := by
  have hfault (c : Cause) : Took s (s.enterFault c) (receivedBy s (s.enterFault c)) := by
    rw [receivedBy_enterFault]
    exact Took.nil rfl rfl
  obtain ⟨hrunning, ⟨c, _, rfl⟩ | ⟨i, hfetch, heffect | ⟨c, _, rfl⟩⟩⟩ := step_eq_next s t h
  · exact hfault c
  · by_cases hop : i.op = .inp
    · cases i <;> cases hop
      exact took_of_inputEffect hrunning hfetch heffect
    · have hframe := effectOf_frame heffect
      rw [receivedBy_of_op_ne_inp hfetch hop]
      exact Took.nil hframe.inq (hframe.ic.resolve_right fun hinp => hop hinp.1)
  · exact hfault c

/-! ### What one step puts out -/

theorem emittedBy_enterFault (s : State) (c : Cause) : emittedBy s (s.enterFault c) = [] := by
  unfold emittedBy
  split
  · exact if_pos rfl
  · rfl

theorem emittedBy_out {s t : State} {ms : Modes} {p1 v : Word} (hfetch : fetchInstr s.mem s.pc = .ok (.out ms p1))
    (hrs : t.rs ≠ .faulted) (hv : OperandIs s.mem ms.m1 p1 v) : emittedBy s t = [v] := by
  obtain ⟨m1, m2, m3⟩ := ms
  cases m1 with
  | position =>
    have hread : s.mem.read p1 = some v := hv
    simp only [emittedBy, hfetch, if_neg hrs, hread, Option.toList_some]
  | immediate =>
    obtain rfl : v = p1 := hv
    simp only [emittedBy, hfetch, if_neg hrs]

theorem emittedBy_of_op_ne_out {s t : State} {i : Instr} (hfetch : fetchInstr s.mem s.pc = .ok i)
    (hop : i.op ≠ .out) : emittedBy s t = [] := by
  unfold emittedBy
  split
  · rename_i hout
    cases hfetch.symm.trans hout
    exact absurd rfl hop
  · rfl

/-- A step appends to `OUT` what it emits: a fault nothing, OUT its operand, and every other instruction keeps `OUT`. -/
theorem out_of_step {s t : State} (h : step s = .next t) : t.out = s.out ++ emittedBy s t := by
  have hfault (c : Cause) : (s.enterFault c).out = s.out ++ emittedBy s (s.enterFault c) := by
    rw [emittedBy_enterFault, List.append_nil, State.enterFault_out]
  obtain ⟨hrunning, ⟨c, _, rfl⟩ | ⟨i, hfetch, heffect | ⟨c, _, rfl⟩⟩⟩ := step_eq_next s t h
  · exact hfault c
  · by_cases hop : i.op = .out
    · cases i <;> cases hop
      obtain ⟨v, hv, rfl⟩ := (outputEffect_eq_ok ..).1 heffect
      rw [emittedBy_out hfetch (by simp [hrunning]) hv, State.advance_out, State.emit_out]
    · have hout := (effectOf_frame heffect).out.resolve_right fun hout => hop hout.1
      rw [emittedBy_of_op_ne_out hfetch hop, List.append_nil, hout]
  · exact hfault c

/-! ### Over a run -/

theorem took_of_runSteps (n : Nat) (s : State) : Took s (runSteps n s) (received n s) := by
  induction n generalizing s with
  | zero => exact Took.nil rfl rfl
  | succ n ih =>
    rw [runSteps, received]
    cases hstep : step s with
    | next t => exact (took_of_step hstep).trans (ih t)
    | fault | refused => exact Took.nil rfl rfl

/-- Settles O41: a run takes from the front of the queue the words it receives. -/
theorem inputsAreReceivedInOrder : Obligations.InputsAreReceivedInOrder := by
  intro s n
  have htook := took_of_runSteps n s
  exact ⟨htook.eq_take, htook.count⟩

/-- Settles O42: by induction on the number of steps, each of which appends what it emits. -/
theorem outputsAreListedInOrder : Obligations.OutputsAreListedInOrder := by
  intro s n
  induction n generalizing s with
  | zero => exact (List.append_nil _).symm
  | succ n ih =>
    rw [runSteps, emitted]
    cases hstep : step s with
    | next t =>
      calc (runSteps n t).out
          = t.out ++ emitted n t := ih t
        _ = s.out ++ (emittedBy s t ++ emitted n t) := by rw [out_of_step hstep, List.append_assoc]
    | fault | refused => exact (List.append_nil _).symm

end Sys2Proof.Machine
end

section
/-!
PROOFS. The rules of JT and JF (R130, R131), once for every test `taken` of the first operand: the target loaded, the
3 words passed, and the faults of the operands and of the target in the order of R168.
-/

namespace Sys2Proof.Machine

section JumpRule

variable {taken : Word → Bool} {ms : Modes} {p1 p2 c t : Int} {s : State}

theorem finish_jump_taken (hc : OperandIs s.mem ms.m1 p1 c) (ht : OperandIs s.mem ms.m2 p2 t)
    (htaken : taken c = true) (hin : s.mem.inBounds t) :
    finish s (jump taken ms p1 p2 s) = .next { s with pc := t.toNat } :=
  (finish_eq_next ..).2 (.inl ((jump_eq_ok ..).2 ⟨c, t, hc, ht, .inl ⟨htaken, hin, rfl⟩⟩))

/-- The target is resolved but not checked, so any value of it will do (R132 (d), (e)). -/
theorem finish_jump_not_taken (hc : OperandIs s.mem ms.m1 p1 c) (ht : OperandIs s.mem ms.m2 p2 t)
    (htaken : taken c = false) :
    finish s (jump taken ms p1 p2 s) = .next { s with pc := s.pc + 3 } :=
  (finish_eq_next ..).2 (.inl ((jump_eq_ok ..).2 ⟨c, t, hc, ht, .inr ⟨htaken, rfl⟩⟩))

theorem finish_jump_target_bad (hc : OperandIs s.mem ms.m1 p1 c) (ht : OperandIs s.mem ms.m2 p2 t)
    (htaken : taken c = true) (hout : ¬ s.mem.inBounds t) :
    finish s (jump taken ms p1 p2 s) = .next (s.enterFault (.outOfBounds t .jump)) :=
  finish_of_error s ((jump_eq_error ..).2 (.inr ⟨c, t, hc, ht, htaken, hout, rfl⟩))

variable (taken)

theorem finish_jump_first_bad (h : OperandBad s.mem ms.m1 p1) :
    finish s (jump taken ms p1 p2 s) = .next (s.enterFault (.outOfBounds p1 .read)) := by
  have hresolve := (resolveTwo_eq_error s.mem ms p1 p2 _).2 (.inl ⟨h, rfl⟩)
  exact finish_of_error s ((jump_eq_error ..).2 (.inl hresolve))

theorem finish_jump_second_bad (hc : OperandIs s.mem ms.m1 p1 c) (h : OperandBad s.mem ms.m2 p2) :
    finish s (jump taken ms p1 p2 s) = .next (s.enterFault (.outOfBounds p2 .read)) := by
  have hresolve := (resolveTwo_eq_error s.mem ms p1 p2 _).2 (.inr ⟨⟨c, hc⟩, h, rfl⟩)
  exact finish_of_error s ((jump_eq_error ..).2 (.inl hresolve))

end JumpRule

/-- Settles O5: JT finishes with the jump rule of the test `c ≠ 0`, whose five outcomes these are. -/
theorem jtFollowsItsRule : Obligations.JtFollowsItsRule := by
  intro ms p1 p2 s
  have htaken {c : Int} (h : c ≠ 0) : jumpsIfTrue c = true := decide_eq_true h
  have hpassed {c : Int} (h : c = 0) : jumpsIfTrue c = false := decide_eq_false (not_not_intro h)
  exact ⟨rfl,
    fun _ _ hc ht h => finish_jump_taken hc ht (htaken h),
    fun _ _ hc ht h => finish_jump_not_taken hc ht (hpassed h),
    fun _ _ hc ht h => finish_jump_target_bad hc ht (htaken h),
    finish_jump_first_bad jumpsIfTrue,
    fun _ => finish_jump_second_bad jumpsIfTrue⟩

/-- Settles O6: JF finishes with the jump rule of the test `c = 0`, whose five outcomes these are. -/
theorem jfFollowsItsRule : Obligations.JfFollowsItsRule := by
  intro ms p1 p2 s
  have htaken {c : Int} (h : c = 0) : jumpsIfFalse c = true := decide_eq_true h
  have hpassed {c : Int} (h : c ≠ 0) : jumpsIfFalse c = false := decide_eq_false h
  exact ⟨rfl,
    fun _ _ hc ht h => finish_jump_taken hc ht (htaken h),
    fun _ _ hc ht h => finish_jump_not_taken hc ht (hpassed h),
    fun _ _ hc ht h => finish_jump_target_bad hc ht (htaken h),
    finish_jump_first_bad jumpsIfFalse,
    fun _ => finish_jump_second_bad jumpsIfFalse⟩

end Sys2Proof.Machine
end

section
/-!
PROOFS. The rules of LT and EQ (R140, R141), once for every decidable relation `r` of the operands: the store of 1 or 0,
and the faults in the order of R168.
-/

namespace Sys2Proof.Machine

/-- The truth word of a decided proposition (R142). -/
theorem truthWord_decide (p : Prop) [Decidable p] : truthWord (decide p) = if p then 1 else 0 := by
  simp only [truthWord, decide_eq_true_eq]

section ComparisonRule

variable (r : Int → Int → Prop) [DecidableRel r] {ms : Modes} {p1 p2 p3 a b : Int} {s : State}

theorem finish_comparison_stores (ha : OperandIs s.mem ms.m1 p1 a) (hb : OperandIs s.mem ms.m2 p2 b)
    (hin : s.mem.inBounds p3) :
    ∃ t, finish s (comparison (fun a b => decide (r a b)) ms p1 p2 p3 s) = .next t ∧
      StoredAndAdvanced s t p3 (if r a b then 1 else 0) 4 ∧ t.ic = s.ic := by
  have heffect := (comparison_eq_ok (fun a b => decide (r a b)) ms p1 p2 p3 s _).2 ⟨a, b, ha, hb, hin, rfl⟩
  rw [truthWord_decide] at heffect
  exact ⟨_, (finish_eq_next ..).2 (.inl heffect), storedAndAdvanced_store hin _ 4, rfl⟩

theorem finish_comparison_first_bad (h : OperandBad s.mem ms.m1 p1) :
    finish s (comparison (fun a b => decide (r a b)) ms p1 p2 p3 s) =
      .next (s.enterFault (.outOfBounds p1 .read)) := by
  have hresolve := (resolveTwo_eq_error s.mem ms p1 p2 _).2 (.inl ⟨h, rfl⟩)
  exact finish_of_error s ((comparison_eq_error ..).2 (.inl hresolve))

theorem finish_comparison_second_bad (ha : OperandIs s.mem ms.m1 p1 a) (h : OperandBad s.mem ms.m2 p2) :
    finish s (comparison (fun a b => decide (r a b)) ms p1 p2 p3 s) =
      .next (s.enterFault (.outOfBounds p2 .read)) := by
  have hresolve := (resolveTwo_eq_error s.mem ms p1 p2 _).2 (.inr ⟨⟨a, ha⟩, h, rfl⟩)
  exact finish_of_error s ((comparison_eq_error ..).2 (.inl hresolve))

theorem finish_comparison_destination_bad (ha : OperandIs s.mem ms.m1 p1 a) (hb : OperandIs s.mem ms.m2 p2 b)
    (hout : ¬ s.mem.inBounds p3) :
    finish s (comparison (fun a b => decide (r a b)) ms p1 p2 p3 s) =
      .next (s.enterFault (.outOfBounds p3 .write)) :=
  finish_of_error s ((comparison_eq_error ..).2 (.inr ⟨a, b, ha, hb, hout, rfl⟩))

end ComparisonRule

/-- Settles O7: LT finishes with the comparison rule of the signed order, whose four outcomes these are. -/
theorem ltFollowsItsRule : Obligations.LtFollowsItsRule := by
  intro ms p1 p2 p3 s
  exact ⟨rfl,
    fun _ _ => finish_comparison_stores (· < ·),
    finish_comparison_first_bad (· < ·),
    fun _ => finish_comparison_second_bad (· < ·),
    fun _ _ => finish_comparison_destination_bad (· < ·)⟩

/-- Settles O8: EQ finishes with the comparison rule of equality, whose four outcomes these are. -/
theorem eqFollowsItsRule : Obligations.EqFollowsItsRule := by
  intro ms p1 p2 p3 s
  exact ⟨rfl,
    fun _ _ => finish_comparison_stores (· = ·),
    finish_comparison_first_bad (· = ·),
    fun _ => finish_comparison_second_bad (· = ·),
    fun _ _ => finish_comparison_destination_bad (· = ·)⟩

end Sys2Proof.Machine
end

section
/-!
PROOFS. The rule of HALT (R150).
-/

namespace Sys2Proof.Machine

/-- HALT resolves nothing and checks nothing, so it has one outcome: `RS` is set and the program counter holds. -/
theorem exec_halt (ms : Modes) (s : State) : exec (.halt ms) s = .next (s.halt.advance .hold) := by
  rw [exec_eq_finish]
  exact (finish_eq_next ..).2 (.inl rfl)

/-- Settles O9: HALT's word is its opcode with the mode digits, and holding the program counter keeps it, so `RS` is the
one field that changes. -/
theorem haltFollowsItsRule : Obligations.HaltFollowsItsRule := by
  intro ms s
  exact ⟨rfl, exec_halt ms s⟩

end Sys2Proof.Machine
end

section
/-!
PROOFS. The faults of a step (60_exceptions.md): fault entry is precise, each instruction raises only the faults of the
table of R167, and the codes are those of R160.
-/

namespace Sys2Proof.Machine

/-- Settles O29: each code stands in its own case, and looks at none of the cause's fields. -/
theorem faultCodesAreTheTable : Obligations.FaultCodesAreTheTable :=
  fun _ _ _ => ⟨rfl, rfl, rfl, rfl, rfl⟩

/-! ### Precise faults -/

/-- Only fault entry leads from RUNNING to FAULTED (R170). -/
theorem effectOf_not_faulted {i : Instr} {s t : State} (hrunning : s.rs = .running) (h : effectOf i s = .ok t) :
    t.rs ≠ .faulted :=
  have hrs : s.rs ≠ .faulted := by simp [hrunning]
  ((effectOf_completed i s t h).keeps_record hrs).2

/-- Settles O27: a completed instruction does not fault, so a step that faults is fault entry, by the fetch or by the
fetched instruction, and both raise a cause only where its condition holds. -/
theorem faultsArePrecise : Obligations.FaultsArePrecise := by
  intro s t hstep hfaulted
  obtain ⟨hrunning, ⟨c, hfetch, rfl⟩ | ⟨i, hfetch, heffect | ⟨c, heffect, rfl⟩⟩⟩ := step_eq_next s t hstep
  · exact ⟨c, fetchInstr_causeHolds hfetch, rfl⟩
  · exact absurd hfaulted (effectOf_not_faulted hrunning heffect)
  · exact ⟨c, effectOf_causeHolds hfetch heffect, rfl⟩

/-! ### The table of R167 -/

section Effects

variable {i : Instr} {s : State} {c : Cause} {ms : Modes} {p1 p2 p3 : Word}

theorem resolveTwo_mayRaise {m : Memory} (hsources : sourcesOf i = [(ms.m1, p1), (ms.m2, p2)])
    (h : resolveTwo m ms p1 p2 = .error c) : MayRaise i c := by
  obtain ⟨⟨hmode, _⟩, rfl⟩ | ⟨_, ⟨hmode, _⟩, rfl⟩ := (resolveTwo_eq_error ..).1 h <;>
  simp [MayRaise, hsources, hmode]

theorem arithmetic_mayRaise {f : Int → Int → Int} (hsources : sourcesOf i = [(ms.m1, p1), (ms.m2, p2)])
    (hdst : destinationOf i = some p3) (hop : i.op = .add ∨ i.op = .mul)
    (h : arithmetic f ms p1 p2 p3 s = .error c) : MayRaise i c := by
  obtain h | ⟨_, _, _, _, ⟨_, rfl⟩ | ⟨_, _, rfl⟩⟩ := (arithmetic_eq_error ..).1 h
  · exact resolveTwo_mayRaise hsources h
  · exact hdst
  · exact hop

theorem comparison_mayRaise {rel : Int → Int → Bool} (hsources : sourcesOf i = [(ms.m1, p1), (ms.m2, p2)])
    (hdst : destinationOf i = some p3) (h : comparison rel ms p1 p2 p3 s = .error c) : MayRaise i c := by
  obtain h | ⟨_, _, _, _, _, rfl⟩ := (comparison_eq_error ..).1 h
  · exact resolveTwo_mayRaise hsources h
  · exact hdst

theorem jump_mayRaise {taken : Word → Bool} (hsources : sourcesOf i = [(ms.m1, p1), (ms.m2, p2)])
    (hop : i.op = .jt ∨ i.op = .jf) (h : jump taken ms p1 p2 s = .error c) : MayRaise i c := by
  obtain h | ⟨_, _, _, _, _, _, rfl⟩ := (jump_eq_error ..).1 h
  · exact resolveTwo_mayRaise hsources h
  · exact hop

theorem inputEffect_mayRaise (h : inputEffect p1 s = .error c) : MayRaise (.inp ms p1) c := by
  obtain ⟨_, rfl⟩ | ⟨_, _, rfl⟩ := (inputEffect_eq_error ..).1 h <;> rfl

theorem outputEffect_mayRaise (h : outputEffect ms p1 s = .error c) : MayRaise (.out ms p1) c := by
  obtain ⟨⟨hmode, _⟩, rfl⟩ := (outputEffect_eq_error ..).1 h
  simp [MayRaise, sourcesOf, hmode]

/-- An instruction's own rule raises only the faults of its row of R167. -/
theorem effectOf_mayRaise (h : effectOf i s = .error c) : MayRaise i c := by
  cases i with
  | add => exact arithmetic_mayRaise rfl rfl (.inl rfl) h
  | mul => exact arithmetic_mayRaise rfl rfl (.inr rfl) h
  | inp => exact inputEffect_mayRaise h
  | out => exact outputEffect_mayRaise h
  | jt => exact jump_mayRaise rfl (.inl rfl) h
  | jf => exact jump_mayRaise rfl (.inr rfl) h
  | lt => exact comparison_mayRaise (rel := fun a b => decide (a < b)) rfl rfl h
  | eq => exact comparison_mayRaise (rel := fun a b => decide (a = b)) rfl rfl h
  | halt => cases h

end Effects

/-- Settles O28: a completed instruction leaves a RUNNING state RUNNING or HALTED, so an execution that faults is the
entry of a fault its effect raised. -/
theorem eachInstructionRaisesOnlyItsFaults : Obligations.EachInstructionRaisesOnlyItsFaults := by
  intro i s t hrunning hexec hfaulted
  rw [exec_eq_finish, finish_eq_next] at hexec
  obtain heffect | ⟨c, heffect, rfl⟩ := hexec
  · exact absurd hfaulted (effectOf_not_faulted hrunning heffect)
  · exact ⟨c, rfl, effectOf_mayRaise heffect⟩

end Sys2Proof.Machine
end

section
/-!
PROOFS. Every text of the grammar is one the Loader reads, with the same values (R195, R196), so that a load succeeds
on exactly these.
-/

namespace Sys2Proof.Machine

/-- `integer` of R195 has no empty text and no other characters. -/
theorem IntegerText.ne_nil_and_digit_or_sign {cs : List Char} {v : Int} (h : IntegerText cs v) :
    cs ≠ [] ∧ ∀ c ∈ cs, isDecimalDigit c = true ∨ c = '-' := by
  obtain ⟨ds, hne, hdigits, ⟨rfl, _⟩ | ⟨rfl, _⟩⟩ := h
  · exact ⟨hne, fun c hc => .inl (hdigits c hc)⟩
  · exact ⟨List.cons_ne_nil _ _, List.forall_mem_cons.2 ⟨.inr rfl, fun c hc => .inl (hdigits c hc)⟩⟩

/-- No character of an integer is whitespace or a comma. -/
theorem not_isSpace_and_ne_comma {c : Char} (h : isDecimalDigit c = true ∨ c = '-') :
    isSpace c = false ∧ c ≠ ',' := by
  constructor
  · by_contra hspace
    simp only [Bool.not_eq_false, isSpace, Bool.or_eq_true, decide_eq_true_eq] at hspace
    obtain ((rfl | rfl) | rfl) | rfl := hspace <;> exact absurd h (by decide)
  · rintro rfl
    exact absurd h (by decide)

theorem ne_comma_of_isSpace {c : Char} (h : isSpace c = true) : c ≠ ',' := by
  rintro rfl
  exact absurd h (by decide)

/-- The integer parser accepts every integer of the grammar with its value; a digit is not the sign, so the parser's two
cases are the grammar's. -/
theorem parseInteger_of_integerText {cs : List Char} {v : Int} (h : IntegerText cs v) : parseInteger cs = some v := by
  obtain ⟨ds, hne, hdigits, ⟨rfl, rfl⟩ | ⟨rfl, rfl⟩⟩ := h
  · have hparse := (parseDigits_eq_some cs _).2 ⟨hne, hdigits, rfl⟩
    unfold parseInteger
    split
    · exact absurd (hdigits '-' List.mem_cons_self) (by decide)
    · simp [hparse]
  · have hparse := (parseDigits_eq_some ds _).2 ⟨hne, hdigits, rfl⟩
    simp [parseInteger, hparse]

theorem dropWhile_isSpace_eq_self {cs : List Char} (h : ∀ c ∈ cs, isSpace c = false) : cs.dropWhile isSpace = cs :=
  List.dropWhile_eq_self_iff.2 fun hpos => Bool.not_eq_true _ ▸ h _ (List.getElem_mem hpos)

/-- Trimming gives back what stands between the whitespace when it holds none itself. -/
theorem trimSpace_append_append {l m r : List Char} (hl : ∀ c ∈ l, isSpace c = true) (hr : ∀ c ∈ r, isSpace c = true)
    (hne : m ≠ []) (hm : ∀ c ∈ m, isSpace c = false) : trimSpace (l ++ m ++ r) = m := by
  have hfront : (l ++ m ++ r).dropWhile isSpace = m ++ r := by
    rw [List.append_assoc, List.dropWhile_append_of_pos hl, List.dropWhile_append, dropWhile_isSpace_eq_self hm,
      if_neg (by simpa using hne)]
  have hbehind : (m ++ r).reverse.dropWhile isSpace = m.reverse := by
    rw [List.reverse_append, List.dropWhile_append_of_pos (by simpa using hr),
      dropWhile_isSpace_eq_self (by simpa using hm)]
  rw [trimSpace, hfront, hbehind, List.reverse_reverse]

/-- A token of the grammar whose value is a Word is read as that Word (R195, R196). -/
theorem parseToken_of_tokenText {t : List Char} {v : Int} (h : TokenText t v) (hv : fits v) : parseToken t = .ok v := by
  obtain ⟨l, m, r, hl, hr, rfl, hinteger⟩ := h
  obtain ⟨hne, hchars⟩ := hinteger.ne_nil_and_digit_or_sign
  have htrim := trimSpace_append_append hl hr hne fun c hc => (not_isSpace_and_ne_comma (hchars c hc)).1
  exact (parseToken_eq_ok _ v).2 ⟨htrim.symm ▸ parseInteger_of_integerText hinteger, hv⟩

/-- A token holds no comma, so the commas of a text are the ones between its tokens. -/
theorem TokenText.comma_notMem {t : List Char} {v : Int} (h : TokenText t v) : ',' ∉ t := by
  obtain ⟨l, m, r, hl, hr, rfl, hinteger⟩ := h
  obtain ⟨_, hchars⟩ := hinteger.ne_nil_and_digit_or_sign
  simp only [List.mem_append, not_or]
  exact ⟨⟨fun hc => ne_comma_of_isSpace (hl _ hc) rfl, fun hc => (not_isSpace_and_ne_comma (hchars _ hc)).2 rfl⟩,
    fun hc => ne_comma_of_isSpace (hr _ hc) rfl⟩

/-- Splitting a text of the grammar at its commas gives its tokens. -/
theorem splitCommas_of_programText {text : List Char} {vs : List Int} (h : ProgramText text vs) :
    List.Forall₂ TokenText (splitCommas text) vs := by
  rw [splitCommas_eq_splitOn]
  induction h with
  | single ht =>
    rw [List.splitOn_eq_singleton ht.comma_notMem]
    exact .cons ht .nil
  | more ht _ ih =>
    rw [List.splitOn_append_cons_self_of_not_mem ht.comma_notMem]
    exact .cons ht (splitCommas_eq_splitOn _ ▸ ih)

/-- A text loads exactly when it is of the grammar and its values are Words (R195, R196). -/
theorem parseProgram_eq_ok_iff_programText (text : List Char) (image : List Word) :
    parseProgram text = .ok image ↔ ProgramText text image ∧ ∀ v ∈ image, fits v := by
  refine ⟨fun h => ⟨programText_of_parseProgram h, parseProgram_fits h⟩, fun ⟨htext, hfits⟩ => ?_⟩
  have htokens : List.Forall₂ (fun v t => fits v ∧ TokenText t v) image (splitCommas text) :=
    (List.forall₂_and_left ..).2 ⟨hfits, (splitCommas_of_programText htext).flip⟩
  exact (parseProgram_eq_ok text image).2 (htokens.flip.imp fun _ _ ⟨hv, ht⟩ => parseToken_of_tokenText ht hv)

/-- Settles O37: a load succeeds exactly when the text parses, and a text parses exactly when the grammar has it. -/
theorem loadAcceptsExactlyTheGrammar : Obligations.LoadAcceptsExactlyTheGrammar := by
  intro text inputs s
  simp only [load_eq_ok, parseProgram_eq_ok_iff_programText, and_assoc]

end Sys2Proof.Machine
end

section
/-!
PROOFS. How a run ends: it stays as it is (R200, R202), and its result is read off `RS` (R197, R201, R173).
-/

namespace Sys2Proof.Machine

/-! ### A run that has ended -/

/-- A state that is not RUNNING has no step (R92), so it stays. -/
theorem runSteps_of_not_running {s : State} (h : s.rs ≠ .running) (n : Nat) : runSteps n s = s := by
  obtain ⟨_, hhalted, hfaulted⟩ := stepEnabledExactlyWhenRunning s
  cases n with
  | zero => rfl
  | succ n =>
    cases hrs : s.rs with
    | running => exact absurd hrs h
    | halted => simp only [runSteps, hhalted hrs]
    | faulted => simp only [runSteps, hfaulted hrs]

theorem runSteps_add (n k : Nat) (s : State) : runSteps (n + k) s = runSteps k (runSteps n s) := by
  induction n generalizing s with
  | zero => rw [Nat.zero_add, runSteps]
  | succ n ih =>
    by_cases hrunning : s.rs = .running
    · obtain ⟨t, hstep⟩ := exists_step_eq_next hrunning
      rw [Nat.succ_add, runSteps, runSteps, hstep]
      exact ih t
    · simp only [runSteps_of_not_running hrunning]

theorem not_running_of_runResult {s : State} {r : RunResult} (h : runResult s = some r) : s.rs ≠ .running := by
  intro hrunning
  simp [runResult, hrunning] at h

/-- Settles O39: a state with a result is not RUNNING, so the further steps leave it. -/
theorem anEndedRunKeepsItsResult : Obligations.AnEndedRunKeepsItsResult := by
  intro s n k r h
  rw [execute, runSteps_add, runSteps_of_not_running (not_running_of_runResult h)]
  exact h

/-! ### What a run returns -/

/-- What every step keeps, a run keeps. -/
theorem runSteps_keeps {P : State → Prop} (hkeep : ∀ s t, P s → step s = .next t → P t) (n : Nat) {s : State}
    (h : P s) : P (runSteps n s) := by
  induction n generalizing s with
  | zero => exact h
  | succ n ih =>
    rw [runSteps]
    cases hstep : step s with
    | next t => exact ih (hkeep s t h hstep)
    | fault | refused => exact h

theorem runResult_eq_output (s : State) (o : List Word) :
    runResult s = some (.output o) ↔ s.rs = .halted ∧ s.out = o := by
  unfold runResult
  split <;> simp [*]

theorem runResult_eq_fault (s : State) (r : FaultRecord) :
    runResult s = some (.fault r) ↔ s.rs = .faulted ∧ s.fr = some r := by
  unfold runResult
  split <;> simp [*]

/-- A FAULTED state has a record (R28), so only a RUNNING one has no result. -/
theorem runResult_eq_none {s : State} (hrecord : s.fr.isSome = true ↔ s.rs = .faulted) :
    runResult s = none ↔ s.rs = .running := by
  unfold runResult
  split <;> simp_all

theorem State.done_eq_false (s : State) : s.done = false ↔ s.rs = .running := by
  cases hrs : s.rs <;> simp [State.done, hrs]

/-- Settles O40: a run keeps the records sound, and the result of a state with a sound record is read off `RS`. -/
theorem executeReturnsOutOrTheFault : Obligations.ExecuteReturnsOutOrTheFault := by
  intro s n hsound
  obtain ⟨hrecord, _⟩ := runSteps_keeps stepKeepsRecordsSound n hsound
  have hnone := runResult_eq_none hrecord
  exact ⟨runResult_eq_output _, runResult_eq_fault _, hnone, hnone.trans (State.done_eq_false _).symm⟩

end Sys2Proof.Machine
end

section
/-!
PROOFS. IN with a cursor past the queue's end, which no run reaches (log entry 5).
-/

namespace Sys2Proof.Machine

/-- Settles O44: an index past the end of a list finds nothing, so the queue has no front. -/
theorem inPastTheQueuesEndUnderflows : Obligations.InPastTheQueuesEndUnderflows := by
  intro ms p1 s hin hpast
  have hfront : s.frontInput = none := List.getElem?_eq_none hpast.le
  exact finish_of_error s ((inputEffect_eq_error ..).2 (.inr ⟨hin, hfront, rfl⟩))

end Sys2Proof.Machine
end
